-- ==== Sys2Proof/Word.lean ====
section
/-! DEFINITION. The widths of the block's values (00_scope.md R10): unsigned 8, 16 and 32 bits, and byte sequences (R11). -/

namespace Sys2Proof

/-- `u8` (R10). -/
abbrev Byte := BitVec 8

/-- `u16` (R10). -/
abbrev U16 := BitVec 16

/-- `u32` (R10). -/
abbrev U32 := BitVec 32

/-- `bytes`: element 0 is the first byte on the link and the lowest index (R11). -/
abbrev Bytes := List Byte

end Sys2Proof
end

