-- ==== Sys2Proof/Config.lean ====
section
/-! DEFINITION. The constants the source fixes (00_scope.md R7), the build-time parameters it leaves open with this
spec's defaults (R8, R9; 92_eei_decisions.md D3 to D10), and the environment's open constants. -/

namespace Sys2Proof

/-- FLAG, the delimiter byte, SOF and EOF alike (R7). -/
def flagByte : Byte := 0x7E

/-- ESC, the escape byte (R7). -/
def escByte : Byte := 0x7D

/-- ESC_XOR, the value XORed into an escaped byte (R7). -/
def escXor : Byte := 0x20

/-- CRC_SIZE in bytes (R7). -/
def crcSize : Nat := 2

/-- HDR_SIZE in bytes: `cmd(1)` and `len(2)` (R7). -/
def hdrSize : Nat := 3

/-- MAX_RW_COUNT (R7). -/
def maxRwCount : Nat := 256

/-- CMD code of ECHO (R7, R101). -/
def echoCode : Byte := 0x01
/-- CMD code of READ (R7, R101). -/
def readCode : Byte := 0x02
/-- CMD code of WRITE (R7, R101). -/
def writeCode : Byte := 0x03
/-- CMD code of SETCLR (R7, R101). -/
def setclrCode : Byte := 0x04
/-- CMD code of READ_RESP (R7, R101). -/
def readRespCode : Byte := 0x05
/-- CMD code of ACK (R7, R101). -/
def ackCode : Byte := 0x06

/-- The flash window, `1 << 24` bytes (00_scope.md R9, 20_memory.md R64). -/
def flashWindow : Nat := 2 ^ 24

/-- FLASH_SECTOR (R9). -/
def flashSector : Nat := 0x10000

/-- Bytes of one FlashUpdate chunk: 256 words of 4 bytes (45_command_contract.md R244). -/
def flashChunk : Nat := 1024

/-- The protocol error codes by name (30_encoding.md R95). -/
inductive ErrorCode
  | ok | badCmdLen | badCmd | badPayloadLen | badAddr | notAligned | badWidth | badCount
  | flashReadErr | flashEraseErr | flashWriteErr
  deriving DecidableEq, Repr

/-- Order of the bytes of a multi-byte value (FIELD_ENDIAN, CRC_WIRE; R8). -/
inductive ByteOrder
  | little | big
  deriving DecidableEq, Repr

/-- The parameter record of the CRC-16 unit (R8; 40_crc.md R121, R123). -/
structure CrcParams where
  poly   : U16
  init   : U16
  refIn  : Bool
  refOut : Bool
  xorOut : U16
  deriving DecidableEq, Repr

/-- CRC-16/CCITT-FALSE, the spec's default (40_crc.md R122). PRESUMED, unsafe (log 15): the spec itself takes it from
general knowledge. -/
def CrcParams.ccittFalse : CrcParams :=
  { poly := 0x1021, init := 0xFFFF, refIn := false, refOut := false, xorOut := 0x0000 }

/-- The numbering ERR_CODE of the error codes (30_encoding.md R95, D10). -/
structure ErrCodes where
  ok            : Byte
  badCmdLen     : Byte
  badCmd        : Byte
  badPayloadLen : Byte
  badAddr       : Byte
  notAligned    : Byte
  badWidth      : Byte
  badCount      : Byte
  flashReadErr  : Byte
  flashEraseErr : Byte
  flashWriteErr : Byte
  deriving DecidableEq, Repr

/-- Ordinal position in the source's list (R95). -/
def ErrCodes.ordinal : ErrCodes :=
  { ok := 0x00, badCmdLen := 0x01, badCmd := 0x02, badPayloadLen := 0x03, badAddr := 0x04, notAligned := 0x05
    badWidth := 0x06, badCount := 0x07, flashReadErr := 0x08, flashEraseErr := 0x09, flashWriteErr := 0x0A }

/-- The parameters the block and its host are built with (R8; TIMEOUT, R9, in ticks of the host's clock, log 11).
They are fixed when the block is built and no operation changes them (10_state.md R20). -/
structure Params where
  minCmdLen    : Nat
  maxCmdLen    : Nat
  echoMax      : Nat
  crc          : CrcParams
  crcWire      : ByteOrder
  fieldEndian  : ByteOrder
  errCode      : ErrCodes
  timeoutTicks : Nat
  deriving DecidableEq, Repr

/-- The defaults of R8 and R9. -/
def Params.default : Params :=
  { minCmdLen := 4, maxCmdLen := 1034, echoMax := 1031, crc := .ccittFalse, crcWire := .little
    fieldEndian := .little, errCode := .ordinal, timeoutTicks := 10 }

/-- RX_CAP, the unstuffed receive capacity (R8, D6). -/
def Params.rxCap (p : Params) : Nat := p.maxCmdLen + crcSize

/-- RAW_CAP, the bound on a stuffed frame (R8, D6). -/
def Params.rawCap (p : Params) : Nat := 2 * (p.maxCmdLen + crcSize) + 2

/-- The values R8 admits: MIN_CMD_LEN at most 4, MAX_CMD_LEN from 1034 to 65538, and an ECHO payload that fits
(ECHO_MAX at most MAX_CMD_LEN − 3; DEDUCED, safe: log 13). -/
abbrev Params.admissible (p : Params) : Prop :=
  p.minCmdLen ≤ 4 ∧ 1034 ≤ p.maxCmdLen ∧ p.maxCmdLen ≤ 65538 ∧ 1 ≤ p.echoMax ∧ p.echoMax + hdrSize ≤ p.maxCmdLen

/-- FLASH_BASE, the slave address of the flash window: OPEN, no value in the source (R9, D30). -/
opaque Config.flashBase : U32

/-- Where an element byte whose address is 2^32 or more lands at the slave's target: not in the source and not to be
assumed (91_not_in_source.md N10; 93_implementation_defined.md U12). -/
opaque Config.addrBeyondTop : Nat → U32

/-- The bytes FlashUpdate finds beyond the end of a source buffer shorter than its length, counted from that end: the
spec does not say (45_command_contract.md R244; log 23). -/
opaque Config.sourceBeyond : Bytes → Nat → Byte

end Sys2Proof
end

