-- ==== Sys2Proof/Syntax.lean ====
section
/-! DEFINITION. The abstract command (30_encoding.md R94) and the instructions: one constructor of `Instr` for each row of
spec/opcode_table.json, six commands, the reserved command space and five link symbols. -/

namespace Sys2Proof

/-- The tagged sum of R94. `cmd` is the constructor, `len` is always computed (R84). -/
inductive Command
  | echo (data : Bytes)
  | read (addr : U32) (width : Byte) (count : U16)
  | write (addr : U32) (width : Byte) (count : U16) (values : Bytes)
  | setclr (addr : U32) (width : Byte) (mask : Bytes) (val : Bytes)
  | readResp (addr : U32) (width : Byte) (count : U16) (values : Bytes)
  | ack (req : Byte) (err : Byte)
  deriving DecidableEq, Repr

/-- What the host does with a command it has received: `serve` as the slave's responder (45_command_contract.md R238),
`settle` as the master's session (60_exceptions.md R288). -/
inductive RecvUse
  | serve | settle
  deriving DecidableEq, Repr

/-- How a request variant is used: `transmit` (Serialize, then TxStart: 43_serializer.md R180, 41_framer_tx.md R136),
`request` (the session's send: 60_exceptions.md R286), or received. -/
inductive ReqUse
  | transmit | request | receive (u : RecvUse)
  deriving DecidableEq, Repr

/-- How a response variant is used; it is never a request (45_command_contract.md R230). -/
inductive RespUse
  | transmit | receive (u : RecvUse)
  deriving DecidableEq, Repr

/-- The instructions: the rows of spec/opcode_table.json (R82, R101). -/
inductive Instr
  | echo (u : ReqUse) (data : Bytes)
  | read (u : ReqUse) (addr : U32) (width : Byte) (count : U16)
  | write (u : ReqUse) (addr : U32) (width : Byte) (count : U16) (values : Bytes)
  | setclr (u : ReqUse) (addr : U32) (width : Byte) (mask : Bytes) (val : Bytes)
  | readResp (u : RespUse) (addr : U32) (width : Byte) (count : U16) (values : Bytes)
  | ack (u : RespUse) (req : Byte) (err : Byte)
  | reservedCmd (u : RecvUse) (cmd : Byte) (payload : Bytes)
  | flag
  | escFlag
  | escEsc
  | escOther (b : Byte)
  | literal (b : Byte)
  deriving DecidableEq, Repr

/-- Where an instruction's bytes stand: raw bytes on `link_rx`, or the unstuffed command bytes the host sends, sends as a
session request, or has received. -/
inductive Port
  | link | transmit | request | frame (u : RecvUse)
  deriving DecidableEq, Repr

/-- The port of a request variant's use. -/
def ReqUse.port : ReqUse → Port
  | .transmit => .transmit
  | .request => .request
  | .receive u => .frame u

/-- The port of a response variant's use. -/
def RespUse.port : RespUse → Port
  | .transmit => .transmit
  | .receive u => .frame u

/-- The port an instruction is fetched from. -/
def Instr.port : Instr → Port
  | .echo u _ => u.port
  | .read u _ _ _ => u.port
  | .write u _ _ _ _ => u.port
  | .setclr u _ _ _ _ => u.port
  | .readResp u _ _ _ _ => u.port
  | .ack u _ _ => u.port
  | .reservedCmd u _ _ => .frame u
  | .flag => .link
  | .escFlag => .link
  | .escEsc => .link
  | .escOther _ => .link
  | .literal _ => .link

/-- The command the host hands to Serialize, as an instruction. -/
def Command.transmitted : Command → Instr
  | .echo d => .echo .transmit d
  | .read a w c => .read .transmit a w c
  | .write a w c v => .write .transmit a w c v
  | .setclr a w m v => .setclr .transmit a w m v
  | .readResp a w c v => .readResp .transmit a w c v
  | .ack r e => .ack .transmit r e

/-- A received command, as an instruction. -/
def Command.received (u : RecvUse) : Command → Instr
  | .echo d => .echo (.receive u) d
  | .read a w c => .read (.receive u) a w c
  | .write a w c v => .write (.receive u) a w c v
  | .setclr a w m v => .setclr (.receive u) a w m v
  | .readResp a w c v => .readResp (.receive u) a w c v
  | .ack r e => .ack (.receive u) r e

/-- A NACK is an ACK that carries an error (R103). -/
def Command.nack (req err : Byte) : Command := .ack req err

/-- `Cmd(c)`, the code of the constructor (43_serializer.md R181). -/
def Command.code : Command → Byte
  | .echo _ => echoCode
  | .read _ _ _ => readCode
  | .write _ _ _ _ => writeCode
  | .setclr _ _ _ _ => setclrCode
  | .readResp _ _ _ _ => readRespCode
  | .ack _ _ => ackCode

end Sys2Proof
end

