-- ==== Sys2Proof/WellFormed.lean ====
section
/-! DEFINITION. Which instructions the encoding can write down: the sizes of the byte-string operands agree with the
fields, the length fits `len` and the block's range (30_encoding.md R80, R84 to R91), a reserved `cmd` is one (R97), a link
byte is one the symbol admits (R82, R99). The field constraints of `Validate` (width, count, alignment) are not among
them: a command that breaks them is encodable and is refused by code when it runs (R94). -/

namespace Sys2Proof

/-- A payload length within `len`'s 16 bits and the block's command range (R80, R84). -/
def lengthFits (p : Params) (payloadLen : Nat) : Bool :=
  decide (p.minCmdLen ≤ hdrSize + payloadLen) && decide (hdrSize + payloadLen ≤ p.maxCmdLen)
    && decide (payloadLen < 65536)

/-- R97: the `cmd` values that select no variant. -/
def isReservedCmd (b : Byte) : Bool := b = 0x00 || decide (0x07 ≤ b.toNat)

/-- The check of one instruction under the parameters `p`. -/
def Instr.wellFormed (p : Params) : Instr → Bool
  | .echo _ d => decide (1 ≤ d.length) && lengthFits p d.length
  | .read _ _ _ _ => lengthFits p 7
  | .write _ _ w c v => decide (v.length = c.toNat * w.toNat) && lengthFits p (7 + v.length)
  | .setclr _ _ w m v =>
      decide (m.length = w.toNat) && decide (v.length = w.toNat) && lengthFits p (5 + 2 * w.toNat)
  | .readResp _ _ w c v => decide (v.length = c.toNat * w.toNat) && lengthFits p (7 + v.length)
  | .ack _ _ _ => lengthFits p 2
  | .reservedCmd _ c pl => isReservedCmd c && lengthFits p pl.length
  | .flag => true
  | .escFlag => true
  | .escEsc => true
  | .escOther b => decide (b ≠ 0x7E) && decide (b ≠ 0x5E) && decide (b ≠ 0x5D)
  | .literal b => decide (b ≠ 0x7E) && decide (b ≠ 0x7D)

end Sys2Proof
end

