-- ==== Sys2Proof/Decode.lean ====
section
/-! DEFINITION. Bytes to instructions and back: field assembly (30_encoding.md R92), Deserialize
(44_deserializer.md R200 to R208), the link symbols (R82, R99), then Layout (43_serializer.md R181 to R187) as the encoder,
the error-code numbering (R95), and the host's reading of a word of spec/opcode_table.json. -/

namespace Sys2Proof

/-! ### Fields -/

/-- `LE(v, n)` (00_scope.md R11). -/
def leBytes : Nat → Nat → Bytes
  | 0, _ => []
  | n + 1, v => BitVec.ofNat 8 v :: leBytes n (v / 256)

/-- `fromLE` (R11). -/
def fromLE : Bytes → Nat
  | [] => 0
  | b :: r => b.toNat + 256 * fromLE r

/-- `v` as an `n`-byte field in the byte order `o` (20_memory.md R52). -/
def toField (o : ByteOrder) (n v : Nat) : Bytes :=
  match o with
  | .little => leBytes n v
  | .big => (leBytes n v).reverse

/-- The unsigned value of a field (R92). -/
def ofField (o : ByteOrder) (b : Bytes) : Nat :=
  match o with
  | .little => fromLE b
  | .big => fromLE b.reverse

/-! ### Deserialize -/

/-- The reports of Deserialize (R200). -/
inductive DesError
  | badCmdLen | badCmd | badPayloadLen
  deriving DecidableEq, Repr

/-- The fixed `addr` field at payload offset 0 (R86). -/
def addrField (p : Params) (pl : Bytes) : U32 := BitVec.ofNat 32 (ofField p.fieldEndian (pl.take 4))

/-- The fixed `width` field at payload offset 4 (R86). -/
def widthField (pl : Bytes) : Byte := pl.getD 4 0

/-- The fixed `count` field at payload offset 5 (R86). -/
def countField (p : Params) (pl : Bytes) : U16 :=
  BitVec.ofNat 16 (ofField p.fieldEndian ((pl.drop 5).take 2))

/-- R203. -/
def desEcho (pl : Bytes) : Except DesError Command :=
  if pl.length < 1 then .error .badPayloadLen else .ok (.echo pl)

/-- R204. -/
def desRead (p : Params) (pl : Bytes) : Except DesError Command :=
  if pl.length ≠ 7 then .error .badPayloadLen
  else .ok (.read (addrField p pl) (widthField pl) (countField p pl))

/-- R205; the product is over the naturals. -/
def desWrite (p : Params) (pl : Bytes) : Except DesError Command :=
  if pl.length < 7 then .error .badPayloadLen
  else if pl.length ≠ 7 + (countField p pl).toNat * (widthField pl).toNat then .error .badPayloadLen
  else .ok (.write (addrField p pl) (widthField pl) (countField p pl) (pl.drop 7))

/-- R206. -/
def desSetclr (p : Params) (pl : Bytes) : Except DesError Command :=
  if pl.length < 5 then .error .badPayloadLen
  else if pl.length ≠ 5 + 2 * (widthField pl).toNat then .error .badPayloadLen
  else .ok (.setclr (addrField p pl) (widthField pl) ((pl.drop 5).take (widthField pl).toNat)
    (pl.drop (5 + (widthField pl).toNat)))

/-- R207. -/
def desReadResp (p : Params) (pl : Bytes) : Except DesError Command :=
  if pl.length < 7 then .error .badPayloadLen
  else if pl.length ≠ 7 + (countField p pl).toNat * (widthField pl).toNat then .error .badPayloadLen
  else .ok (.readResp (addrField p pl) (widthField pl) (countField p pl) (pl.drop 7))

/-- R208. -/
def desAck (pl : Bytes) : Except DesError Command :=
  if pl.length ≠ 2 then .error .badPayloadLen else .ok (.ack (pl.getD 0 0) (pl.getD 1 0))

/-- R202: the tag selects the variant's rule. -/
def desVariant (p : Params) (cmd : Byte) (pl : Bytes) : Except DesError Command :=
  if cmd = echoCode then desEcho pl
  else if cmd = readCode then desRead p pl
  else if cmd = writeCode then desWrite p pl
  else if cmd = setclrCode then desSetclr p pl
  else if cmd = readRespCode then desReadResp p pl
  else if cmd = ackCode then desAck pl
  else .error .badCmd

/-- R200, R201: the overall length and the header first. -/
def deserialize (p : Params) : Bytes → Except DesError Command
  | cmd :: l0 :: l1 :: pl =>
    if hdrSize + pl.length < p.minCmdLen ∨ p.maxCmdLen < hdrSize + pl.length then .error .badCmdLen
    else if hdrSize + pl.length ≠ hdrSize + ofField p.fieldEndian [l0, l1] then .error .badCmdLen
    else desVariant p cmd pl
  | _ => .error .badCmdLen

/-! ### The decoder -/

/-- Why bytes are no instruction. -/
inductive DecodeError
  /-- no byte at the port -/
  | noBytes
  /-- an escape byte whose second byte has not arrived (R159) -/
  | pairIncomplete
  /-- an escape byte followed by a FLAG, which is a symbol of its own (R160) -/
  | danglingEscape
  /-- Deserialize's report (R201, R203 to R208; BadCmd never: a reserved `cmd` is an instruction of the table) -/
  | deserialize (e : DesError)
  /-- a variant that the port does not carry: a response or a reserved `cmd` where the host sends (R230, R97) -/
  | wrongPort
  deriving DecidableEq, Repr

/-- One link symbol from the raw bytes, and the bytes after it (R82, R99; log 5). -/
def decodeSymbol : Bytes → Except DecodeError (Instr × Bytes)
  | [] => .error .noBytes
  | b :: r =>
    if b = 0x7E then .ok (.flag, r)
    else if b = 0x7D then
      match r with
      | [] => .error .pairIncomplete
      | c :: r' =>
        if c = 0x7E then .error .danglingEscape
        else if c = 0x5E then .ok (.escFlag, r')
        else if c = 0x5D then .ok (.escEsc, r')
        else .ok (.escOther c, r')
    else .ok (.literal b, r)

/-- A received command (R200); a reserved `cmd` is the row RESERVED_CMD (R202). -/
def decodeFrame (p : Params) (u : RecvUse) (x : Bytes) : Except DesError Instr :=
  match deserialize p x with
  | .ok c => .ok (c.received u)
  | .error .badCmd => .ok (.reservedCmd u (x.headD 0) (x.drop hdrSize))
  | .error e => .error e

/-- A command as a session request: the four request variants (R230). -/
def Command.requested : Command → Option Instr
  | .echo d => some (.echo .request d)
  | .read a w c => some (.read .request a w c)
  | .write a w c v => some (.write .request a w c v)
  | .setclr a w m v => some (.setclr .request a w m v)
  | .readResp _ _ _ _ => none
  | .ack _ _ => none

/-- The decoder: total on any bytes at any port, rejecting by name. -/
def decode (p : Params) (port : Port) (x : Bytes) : Except DecodeError (Instr × Bytes) :=
  match port with
  | .link => decodeSymbol x
  | .frame u =>
    match decodeFrame p u x with
    | .ok i => .ok (i, [])
    | .error e => .error (.deserialize e)
  | .transmit =>
    match deserialize p x with
    | .ok c => .ok (c.transmitted, [])
    | .error .badCmd => .error .wrongPort
    | .error e => .error (.deserialize e)
  | .request =>
    match deserialize p x with
    | .ok c =>
      match c.requested with
      | some i => .ok (i, [])
      | none => .error .wrongPort
    | .error .badCmd => .error .wrongPort
    | .error e => .error (.deserialize e)

/-! ### The encoder -/

/-- `P(c)`, the variant's payload (R182 to R187). -/
def Command.payload (p : Params) : Command → Bytes
  | .echo d => d
  | .read a w c => toField p.fieldEndian 4 a.toNat ++ [w] ++ toField p.fieldEndian 2 c.toNat
  | .write a w c v => toField p.fieldEndian 4 a.toNat ++ [w] ++ toField p.fieldEndian 2 c.toNat ++ v
  | .setclr a w m v => toField p.fieldEndian 4 a.toNat ++ [w] ++ m ++ v
  | .readResp a w c v => toField p.fieldEndian 4 a.toNat ++ [w] ++ toField p.fieldEndian 2 c.toNat ++ v
  | .ack r e => [r, e]

/-- The header and a payload: `len` is always computed (R84, R181). -/
def withHeader (p : Params) (cmd : Byte) (pl : Bytes) : Bytes :=
  [cmd] ++ toField p.fieldEndian 2 pl.length ++ pl

/-- `Layout(c)` (R181). -/
def layout (p : Params) (c : Command) : Bytes := withHeader p c.code (c.payload p)

/-- `ExpectedLen`, the payload length the fields imply (R91). -/
def Command.expectedLen : Command → Nat
  | .echo d => d.length
  | .read _ _ _ => 7
  | .write _ w c _ => 7 + c.toNat * w.toNat
  | .setclr _ w _ _ => 5 + 2 * w.toNat
  | .readResp _ w c _ => 7 + c.toNat * w.toNat
  | .ack _ _ => 2

/-- The bytes of an instruction: Layout for a command, the raw link bytes for a symbol. -/
def encode (p : Params) : Instr → Bytes
  | .echo _ d => layout p (.echo d)
  | .read _ a w c => layout p (.read a w c)
  | .write _ a w c v => layout p (.write a w c v)
  | .setclr _ a w m v => layout p (.setclr a w m v)
  | .readResp _ a w c v => layout p (.readResp a w c v)
  | .ack _ r e => layout p (.ack r e)
  | .reservedCmd _ c pl => withHeader p c pl
  | .flag => [0x7E]
  | .escFlag => [0x7D, 0x5E]
  | .escEsc => [0x7D, 0x5D]
  | .escOther b => [0x7D, b]
  | .literal b => [b]

/-! ### Error codes -/

/-- The byte of a protocol error code under a numbering (R95). -/
def ErrCodes.byte (n : ErrCodes) : ErrorCode → Byte
  | .ok => n.ok
  | .badCmdLen => n.badCmdLen
  | .badCmd => n.badCmd
  | .badPayloadLen => n.badPayloadLen
  | .badAddr => n.badAddr
  | .notAligned => n.notAligned
  | .badWidth => n.badWidth
  | .badCount => n.badCount
  | .flashReadErr => n.flashReadErr
  | .flashEraseErr => n.flashEraseErr
  | .flashWriteErr => n.flashWriteErr

/-- All protocol error codes, in the source's order (R95). -/
def ErrorCode.all : List ErrorCode :=
  [.ok, .badCmdLen, .badCmd, .badPayloadLen, .badAddr, .notAligned, .badWidth, .badCount, .flashReadErr,
    .flashEraseErr, .flashWriteErr]

/-- The name of an `err` byte; none for a reserved value (R95, R98). -/
def ErrCodes.name? (n : ErrCodes) (b : Byte) : Option ErrorCode :=
  ErrorCode.all.find? fun e => n.byte e = b

/-- The protocol code of a Deserialize report (R219). -/
def DesError.code : DesError → ErrorCode
  | .badCmdLen => .badCmdLen
  | .badCmd => .badCmd
  | .badPayloadLen => .badPayloadLen

/-! ### Words of the opcode table -/

/-- The command whose tag is `b` and whose operand bits are all zero: its byte strings have the sizes its zero fields imply,
except that ECHO has the one byte it must have (R85; log 6). -/
def zeroCommand (b : Byte) : Option Command :=
  if b = echoCode then some (.echo [0x00])
  else if b = readCode then some (.read 0 0 0)
  else if b = writeCode then some (.write 0 0 0 [])
  else if b = setclrCode then some (.setclr 0 0 [] [])
  else if b = readRespCode then some (.readResp 0 0 0 [])
  else if b = ackCode then some (.ack 0 0)
  else none

/-- The bytes of an opcode-table word and the port they stand at. A byte that is a `cmd` code is that command, sent by the
host; 0x00 is a received reserved command; any other byte is a link byte; a 16-bit word is an escape pair, its FIRST byte
in bits 15 to 8, as the table's match values 0x7D5E, 0x7D5D and 0x7D00 have it; a longer word is the bytes of a command sent by
the host, the first byte lowest (DEDUCED: log 6). -/
def tableBytes (nbits w : Nat) : Port × Bytes :=
  if nbits ≤ 8 then
    match zeroCommand (BitVec.ofNat 8 w) with
    | some c => (.transmit, layout Params.default c)
    | none =>
      if BitVec.ofNat 8 w = (0x00 : Byte) then (.frame .serve, withHeader Params.default 0x00 [0x00])
      else (.link, [BitVec.ofNat 8 w])
  else if nbits ≤ 16 then (.link, [BitVec.ofNat 8 (w / 256), BitVec.ofNat 8 w])
  else (.transmit, leBytes (nbits / 8) w)

/-- The instruction the decoder reads from a word of the opcode table. -/
def decodeTableWord (nbits w : Nat) : Option Instr :=
  match decode Params.default (tableBytes nbits w).1 (tableBytes nbits w).2 with
  | .ok (i, []) => some i
  | _ => none

end Sys2Proof
end

