-- ==== Sys2Proof/Machine/State.lean ====
section
/-! DEFINITION. The state of one end of the link: the block's own state (10_state.md R20 to R27), its ports (R32), the
build's parameters (00_scope.md R8), and the environment the spec writes down as ENV rules (the host's session, R33; the
operation in progress, 45_command_contract.md R244; the slave's register space, 20_memory.md R51). All plain data. -/

namespace Sys2Proof.Machine

/-- `rx_state` (R24). -/
inductive RxState
  | hunt | inFrame | esc
  deriving DecidableEq, Repr

/-- The values of `rx_event` (42_deframer_rx.md R150). -/
inductive RxEvent
  | frame (data : Bytes) | frameTooLong | crcMismatch | malformed
  deriving DecidableEq, Repr

/-- The receive state `(rx_state, rx_buf[0 .. rx_len))` (R22 to R24; log 2). -/
structure Deframer where
  rxState : RxState
  rxBuf   : Bytes
  deriving DecidableEq, Repr

/-- The receive state after reset and after `RxFlush` (R30, R31). -/
def Deframer.fresh : Deframer := { rxState := .hunt, rxBuf := [] }

/-- The host's session (60_exceptions.md R285): idle, or awaiting the response to the request it sent, with the ticks
left on its timer (R287; log 11). -/
inductive Session
  | idle
  | awaiting (request : Command) (ticks : Nat)
  deriving DecidableEq, Repr

/-- Failures of the slave's target (45_command_contract.md R239). -/
inductive TargetError
  | badAddr | flashReadErr | flashEraseErr | flashWriteErr
  deriving DecidableEq, Repr

/-- What the host's last call returned. -/
inductive Result
  /-- `TxStart` took the frame (41_framer_tx.md R136) -/
  | accepted
  /-- `Serialize` or `Encode` returned an error and nothing was sent (43_serializer.md R180, R134) -/
  | callError (e : ErrorCode)
  /-- the exchange succeeded: an ACK with `err = OK` (60_exceptions.md R288) -/
  | success
  /-- Read's values, each a `width`-byte unsigned integer (45_command_contract.md R241) -/
  | values (v : List Nat)
  /-- a NACK: the `err` byte as received, reserved values included (30_encoding.md R98) -/
  | failed (err : Byte)
  /-- an ACK OK answered a READ: a failed exchange with no values (R241, D29) -/
  | noValues
  /-- the timer expired first (R287) -/
  | timeout
  deriving DecidableEq, Repr

/-- What the outside does next: one transaction on a port of the block, or one move of its host, clock or target
(10_state.md R32; log 4). -/
inductive Input
  /-- a byte arrives on `link_rx` (42_deframer_rx.md R151) -/
  | linkByte (b : Byte)
  /-- the link can take a byte on `link_tx` (41_framer_tx.md R137) -/
  | linkReady
  /-- `tx_start` with raw command bytes (R136) -/
  | txStart (x : Bytes)
  /-- the host calls Serialize and passes the result to `tx_start` (R180) -/
  | call (c : Command)
  /-- the entry point Echo (45_command_contract.md R240) -/
  | echoOp (data : Bytes)
  /-- the entry point Read (R241) -/
  | readOp (addr : U32) (width : Byte) (count : U16)
  /-- the entry point Write (R242) -/
  | writeOp (addr : U32) (width : Byte) (count : U16) (values : Bytes)
  /-- the entry point SetClr (R243) -/
  | setclrOp (addr : U32) (width : Byte) (mask : Bytes) (val : Bytes)
  /-- FlashUpdate (R244) -/
  | flashUpdate (offset : Nat) (length : Nat) (source : Bytes)
  /-- FlashUpdate goes on to its next Write (R244) -/
  | flashNext
  /-- the host takes the event as the slave's responder (R238) -/
  | serve
  /-- the host takes the event as the master's session (60_exceptions.md R288) -/
  | settle
  /-- one tick of the host's clock (R287) -/
  | tick
  /-- the control input RxFlush (10_state.md R31) -/
  | rxFlush
  /-- the reset input (70_reset_and_hazards.md R300) -/
  | reset
  /-- how the slave's target answers accesses from now on (45_command_contract.md R239; log 9) -/
  | targetAnswer (e : Option TargetError)
  /-- a byte of the slave's register space changes by itself (20_memory.md R62; log 8) -/
  | targetChange (addr : U32) (b : Byte)
  deriving DecidableEq, Repr

/-- The machine. -/
structure State where
  /-- the build's parameters; no step changes them (R20; log 1) -/
  params       : Params
  /-- `rx_state`, `rx_len`, `rx_buf` -/
  rx           : Deframer
  /-- the `rx_event` port: the event the last step raised, gone with the next step (R32, R306; log 3) -/
  rxEvent      : Option RxEvent
  /-- `tx_queue` (R26) -/
  txQueue      : Bytes
  /-- the bytes written to `link_tx` since reset, oldest first (R138) -/
  linkTx       : Bytes
  /-- the transactions still to come, next first (log 4) -/
  inputs       : List Input
  /-- what the host's last call returned (log 7) -/
  result       : Option Result
  /-- the session slot (R33, R285) -/
  session      : Session
  /-- the Writes FlashUpdate has still to make (R244; log 12) -/
  flash        : List Command
  /-- the slave's register space, in canonical form (20_memory.md R50, R51; log 8) -/
  mem          : List Host.Cell
  /-- the target's present answer: `none` performs the access (R238; log 9) -/
  targetAnswer : Option TargetError
  deriving DecidableEq, Repr

/-- No step faults: "every failure is a returned result" (60_exceptions.md), `RxStep` "never fails" (42_deframer_rx.md
R150) and the codec is total (R200). The type is empty. -/
inductive Fault
  deriving DecidableEq, Repr

/-- The spec's `refuse` (00_scope.md R13): caller misuse, "a model gives such a call no step, or a refusal outcome". -/
inductive Refusal
  /-- An instruction without a meaning; no arm of `exec` raises it. Safe. -/
  | notModelled (mnemonic : String)
  /-- `TxStart`, hence every call that sends, while `tx_busy` (41_framer_tx.md R136; 93_implementation_defined.md U10).
  Safe: nothing happens. -/
  | txBusy
  /-- An operation called while an earlier one is outstanding: "cannot happen: the caller is blocked"
  (60_exceptions.md R286). Safe: nothing happens. -/
  | callerBlocked
  /-- The host hands over an ACK whose `err` is reserved: "a transmitter never sends them" (30_encoding.md R98;
  93_implementation_defined.md U3: treatment on transmit `refuse`; log 22). Safe: nothing happens. -/
  | reservedErr
  /-- FlashUpdate with a failed precondition (45_command_contract.md R244; 91_not_in_source.md N13: "left as a refusal").
  Safe: nothing happens. -/
  | flashPrecondition
  deriving DecidableEq, Repr

/-- What one step answers. -/
abbrev StepOutcome := Host.Outcome State Fault Refusal

/-- After reset (10_state.md R30; R285 for the session). The parameters are the defaults of R8. The inputs, the last
result, FlashUpdate's progress, the register space and the target's answer are not given by the spec: DESIGN CHOICE,
unsafe (logs 4, 7, 8, 9, 12). -/
def State.reset : State :=
  { params := Params.default, rx := .fresh, rxEvent := none, txQueue := [], linkTx := [], inputs := []
    result := none, session := .idle, flash := [], mem := [], targetAnswer := none }

/-- A transaction that is no instruction of the opcode table, with its data. -/
inductive Act
  /-- a raw link byte that is no whole symbol: an escape byte whose pair is not complete (R159) -/
  | linkByte (b : Byte)
  | linkReady
  | txStart (x : Bytes)
  | flashUpdate (offset : Nat) (length : Nat) (source : Bytes)
  /-- received bytes that do not deserialise (R238, R288) -/
  | rejected (u : RecvUse) (x : Bytes) (e : DesError)
  /-- an operation called while FlashUpdate is between two Writes -/
  | blocked
  | tick
  | rxFlush
  | reset
  | targetAnswer (e : Option TargetError)
  | targetChange (addr : U32) (b : Byte)
  /-- a move with nothing to do: no event to take, an event that is dropped, no chunk left -/
  | nothing
  /-- no input is left: the block goes on by itself (R312) -/
  | idle
  deriving DecidableEq, Repr

/-- What a step runs, and the state with what it takes from the ports removed. -/
inductive Fetched
  | instr (i : Instr) (s : State)
  | act (a : Act) (s : State)
  deriving DecidableEq, Repr

end Sys2Proof.Machine
end

