-- ==== Sys2Proof/Machine/Flags.lean ====
section
/-! DEFINITION. The block's one flag, `tx_busy`, and the counter `rx_len` (10_state.md R23, R27). There are no condition
codes. -/

namespace Sys2Proof.Machine

/-- `tx_busy = (|tx_queue| > 0)` (R27). -/
def State.txBusy (s : State) : Bool := decide (0 < s.txQueue.length)

/-- `rx_len` (R23). -/
def Deframer.rxLen (d : Deframer) : Nat := d.rxBuf.length

/-- The end of a run (70_reset_and_hazards.md R303) at this end of the link: nothing queued, nothing in flight, no
operation outstanding. The deframer may hold a partial frame. -/
def State.quiescent (s : State) : Bool :=
  s.txQueue.isEmpty && s.inputs.isEmpty && decide (s.session = .idle) && s.flash.isEmpty

end Sys2Proof.Machine
end

