-- ==== Sys2Proof/Machine/Ops.lean ====
section
/-! DEFINITION. The named operations over the state: the register space (20_memory.md R50 to R55), the report that ends a
frame (60_exceptions.md R270), the store into `rx_buf` (42_deframer_rx.md R158), the head of `tx_queue` (41_framer_tx.md
R137), and one update for each part of State that a meaning writes. -/

namespace Sys2Proof.Machine

/-! ### The slave's register space -/

/-- A register space: addresses strictly rising, no entry equal to what an unlisted address reads as. -/
abbrev Memory := List Host.Cell

/-- What an unlisted address reads as. The spec gives no contents: DESIGN CHOICE, unsafe (log 8). -/
def unlistedByte : Byte := 0x00

/-- The canonical form, within the 2^32 byte addresses of R50. -/
abbrev Memory.wf (m : Memory) : Prop :=
  m.Pairwise (fun a b => a.1 < b.1) ∧ ∀ c ∈ m, c.2 ≠ unlistedByte ∧ c.1 < 2 ^ 32

/-- The byte at an address. -/
def Memory.read : Memory → Nat → Byte
  | [], _ => unlistedByte
  | (k, v) :: r, a => if k = a then v else Memory.read r a

/-- A cell in front of a memory, left out where it says what an unlisted address says. -/
def Memory.cons (a : Nat) (b : Byte) (m : Memory) : Memory :=
  if b = unlistedByte then m else (a, b) :: m

/-- Write one byte, keeping the canonical form. -/
def Memory.write : Memory → Nat → Byte → Memory
  | [], a, b => Memory.cons a b []
  | (k, v) :: r, a, b =>
    if a < k then Memory.cons a b ((k, v) :: r)
    else if a = k then Memory.cons a b r
    else (k, v) :: Memory.write r a b

/-- The cell an element byte's address reaches: itself below 2^32, an open place above (R51; N10, U12; log 14). -/
def targetAddr (a : Nat) : Nat := if a < 2 ^ 32 then a else (Config.addrBeyondTop a).toNat

/-- The `n` bytes from address `a` on, lowest address first. -/
def Memory.readBytes (m : Memory) (a : Nat) : Nat → Bytes
  | 0 => []
  | n + 1 => m.read (targetAddr a) :: Memory.readBytes m (a + 1) n

/-- Store bytes from address `a` on, lowest address first. -/
def Memory.writeBytes (m : Memory) (a : Nat) : Bytes → Memory
  | [] => m
  | b :: r => Memory.writeBytes (m.write (targetAddr a) b) (a + 1) r

/-- `MemRead(addr, n)` (00_scope.md R12); the least significant byte lies lowest (D23; log 8). -/
def memRead (m : Memory) (addr n : Nat) : Nat := fromLE (m.readBytes addr n)

/-- `MemWrite(addr, n, v)` (R12). -/
def memWrite (m : Memory) (addr n v : Nat) : Memory := m.writeBytes addr (leBytes n v)

/-! ### The receive side -/

/-- The shared effect of every RX report, the analogue of taking an exception (60_exceptions.md R270): `rx_len <- 0`,
`rx_state <- HUNT`, the event goes out, nothing is saved. There is no return operation beside it (R272): the next FLAG
starts a frame. -/
def Deframer.report (e : RxEvent) : Deframer × Option RxEvent := (.fresh, some e)

/-- `Store(v)` (42_deframer_rx.md R158). -/
def Deframer.store (p : Params) (d : Deframer) (v : Byte) : Deframer × Option RxEvent :=
  if d.rxLen = p.rxCap then Deframer.report .frameTooLong
  else ({ rxState := .inFrame, rxBuf := d.rxBuf ++ [v] }, none)

/-! ### Updates of the state -/

/-- A new receive state and the event of the transaction that made it. -/
def State.setRx (s : State) (r : Deframer × Option RxEvent) : State := { s with rx := r.1, rxEvent := r.2 }

/-- Load a whole frame into `tx_queue` (41_framer_tx.md R136). -/
def State.load (s : State) (f : Bytes) : State := { s with txQueue := f }

/-- `TxEmit`: the head of `tx_queue` goes to the link; with an empty queue there is no such step (R137). -/
def State.txEmit (s : State) : State :=
  match s.txQueue with
  | [] => s
  | b :: r => { s with txQueue := r, linkTx := s.linkTx ++ [b] }

/-- A step begins: the first `n` inputs are taken, and the event of the step before is gone, as `rx_event` is neither
latched nor queued (10_state.md R20; 60_exceptions.md R272; 70_reset_and_hazards.md R306; log 3). -/
def State.advance (s : State) (n : Nat) : State := { s with inputs := s.inputs.drop n, rxEvent := none }

/-- What the host's call returned. -/
def State.answer (s : State) (r : Result) : State := { s with result := some r }

/-- The session has sent `c` and its timer runs (60_exceptions.md R286). -/
def State.await (s : State) (c : Command) : State :=
  { s with session := .awaiting c s.params.timeoutTicks, result := none }

/-- An exchange ends: back to `Idle` with its outcome (R287, R288). A Write of FlashUpdate that succeeds with more to come
lets the update go on and returns nothing yet; any other outcome ends the update, with no rollback
(45_command_contract.md R244). -/
def State.finish (s : State) (r : Result) : State :=
  if r = .success ∧ s.flash ≠ [] then { s with session := .idle, result := none }
  else { s with session := .idle, result := some r, flash := [] }

/-- A new register space. -/
def State.setMem (s : State) (m : Memory) : State := { s with mem := m }

end Sys2Proof.Machine
end

