-- ==== Sys2Proof/Machine/Crc.lean ====
section
/-! DEFINITION. The CRC-16 unit (40_crc.md R120 to R126): a pure function of the parameter record and the bytes. -/

namespace Sys2Proof.Machine

/-- One shift step of the loop (R121). -/
def crcShift (poly r : U16) : U16 := if r.msb then (r <<< 1) ^^^ poly else r <<< 1

/-- `n` shift steps. -/
def crcShifts (poly : U16) : Nat → U16 → U16
  | 0, r => r
  | n + 1, r => crcShifts poly n (crcShift poly r)

/-- One input byte, reflected first where CRC_REFIN says so (R121). -/
def crcByte (c : CrcParams) (r : U16) (b : Byte) : U16 :=
  crcShifts c.poly 8 (r ^^^ ((if c.refIn then b.reverse else b).setWidth 16 <<< 8))

/-- The register after the bytes, first byte first (R121). -/
def crcRegister (c : CrcParams) (r : U16) : Bytes → U16
  | [] => r
  | b :: x => crcRegister c (crcByte c r b) x

/-- `crc16(x)` (R121). -/
def crc16 (c : CrcParams) (x : Bytes) : U16 :=
  (if c.refOut then (crcRegister c c.init x).reverse else crcRegister c c.init x) ^^^ c.xorOut

/-- `CrcBytes(c)` in the order CRC_WIRE (41_framer_tx.md R131; 20_memory.md R53). -/
def crcBytes (p : Params) (c : U16) : Bytes := toField p.crcWire 2 c.toNat

/-- The CRC two received bytes carry (R124). -/
def crcOfBytes (p : Params) (b : Bytes) : U16 := BitVec.ofNat 16 (ofField p.crcWire b)

end Sys2Proof.Machine
end

