-- ==== Sys2Proof/Machine/Operands.lean ====
section
/-! DEFINITION. Validate, the field constraints of a command's operands (44_deserializer.md R210 to R217), and the elements of
`values`, `mask` and `val` (30_encoding.md R93). -/

namespace Sys2Proof.Machine

/-- `FieldError` (43_serializer.md R180). -/
inductive FieldError
  | badWidth | badCount | badPayloadLen | notAligned
  deriving DecidableEq, Repr

/-- Validate's answers are protocol codes already (R219). -/
def FieldError.code : FieldError → ErrorCode
  | .badWidth => .badWidth
  | .badCount => .badCount
  | .badPayloadLen => .badPayloadLen
  | .notAligned => .notAligned

/-- WIDTHS (00_scope.md R7). -/
def legalWidth (w : Byte) : Bool := w = 1 || w = 2 || w = 4

/-- `count ∈ [1, 256]` (R210). -/
def legalCount (c : U16) : Bool := decide (1 ≤ c.toNat) && decide (c.toNat ≤ maxRwCount)

/-- `addr mod width = 0` (20_memory.md R60). -/
def aligned (a : U32) (w : Byte) : Bool := a.toNat % w.toNat = 0

/-- R211. -/
def validateEcho (p : Params) (d : Bytes) : Option FieldError :=
  if d.length < 1 ∨ p.echoMax < d.length then some .badPayloadLen else none

/-- R212. -/
def validateRead (a : U32) (w : Byte) (c : U16) : Option FieldError :=
  if ¬ legalWidth w then some .badWidth
  else if ¬ legalCount c then some .badCount
  else if ¬ aligned a w then some .notAligned
  else none

/-- R213; R215 is the same. -/
def validateValues (a : U32) (w : Byte) (c : U16) (v : Bytes) : Option FieldError :=
  if ¬ legalWidth w then some .badWidth
  else if ¬ legalCount c then some .badCount
  else if v.length ≠ c.toNat * w.toNat then some .badPayloadLen
  else if ¬ aligned a w then some .notAligned
  else none

/-- R214. -/
def validateSetclr (a : U32) (w : Byte) (m v : Bytes) : Option FieldError :=
  if ¬ legalWidth w then some .badWidth
  else if m.length ≠ w.toNat ∨ v.length ≠ w.toNat then some .badPayloadLen
  else if ¬ aligned a w then some .notAligned
  else none

/-- `Validate(c)`: the first failing check, `none` for OK (R210, R217). -/
def validate (p : Params) : Command → Option FieldError
  | .echo d => validateEcho p d
  | .read a w c => validateRead a w c
  | .write a w c v => validateValues a w c v
  | .setclr a w m v => validateSetclr a w m v
  | .readResp a w c v => validateValues a w c v
  | .ack _ _ => none

/-- A reserved `err` value: the numbering ERR_CODE gives it to no error code, with the default numbering 0x0B to 0xFF
(30_encoding.md R98; log 22). -/
def reservedErr (p : Params) (err : Byte) : Bool :=
  decide (∀ e ∈ [ErrorCode.ok, .badCmdLen, .badCmd, .badPayloadLen, .badAddr, .notAligned, .badWidth, .badCount,
    .flashReadErr, .flashEraseErr, .flashWriteErr], p.errCode.byte e ≠ err)

/-- What the callers of Serialize may build: every command but an ACK with a reserved `err` (R98;
93_implementation_defined.md U3). -/
def sendable (p : Params) : Command → Bool
  | .echo _ => true
  | .read _ _ _ => true
  | .write _ _ _ _ => true
  | .setclr _ _ _ _ => true
  | .readResp _ _ _ _ => true
  | .ack _ err => ! reservedErr p err

/-- The elements of `values` as integers, element 0 first (R93). -/
def elements (o : ByteOrder) (w : Nat) : Nat → Bytes → List Nat
  | 0, _ => []
  | n + 1, v => ofField o (v.take w) :: elements o w n (v.drop w)

/-- The slave reads `n` elements of `w` bytes from `a` on and lays them out as `values` (45_command_contract.md R232). -/
def readElements (o : ByteOrder) (m : Memory) (a w : Nat) : Nat → Bytes
  | 0 => []
  | n + 1 => toField o w (memRead m a w) ++ readElements o m (a + w) w n

/-- The slave writes `n` elements of `w` bytes from `a` on (R233). -/
def writeElements (o : ByteOrder) (m : Memory) (a w : Nat) (v : Bytes) : Nat → Memory
  | 0 => m
  | n + 1 => writeElements o (memWrite m a w (ofField o (v.take w))) (a + w) w (v.drop w) n

/-- SETCLR's value: `(old & ~m) | (v & m)` within `8 × width` bits (R234). -/
def setclrValue (width old mask val : Nat) : Nat :=
  ((BitVec.ofNat (8 * width) old &&& ~~~(BitVec.ofNat (8 * width) mask))
    ||| (BitVec.ofNat (8 * width) val &&& BitVec.ofNat (8 * width) mask)).toNat

end Sys2Proof.Machine
end

