-- ==== Sys2Proof/Machine/Framer.lean ====
section
/-! DEFINITION. The transmit side: Stuff, Encode and TxStart (41_framer_tx.md R130 to R137), Serialize
(43_serializer.md R180), and what the host does with them (send a command, open a session exchange: R286). -/

namespace Sys2Proof.Machine

/-- `Stuff(t)` (R132). -/
def stuff : Bytes → Bytes
  | [] => []
  | b :: r => if b = flagByte ∨ b = escByte then escByte :: (b ^^^ escXor) :: stuff r else b :: stuff r

/-- The frame of a command: CRC appended, the whole stuffed, one FLAG at each end (R131 to R133). -/
def frameOf (p : Params) (x : Bytes) : Bytes := [flagByte] ++ stuff (x ++ crcBytes p (crc16 p.crc x)) ++ [flagByte]

/-- `Encode(x)` (R130, R134). -/
def encodeFrame (p : Params) (x : Bytes) : Except ErrorCode Bytes :=
  if p.maxCmdLen < x.length then .error .badCmdLen else .ok (frameOf p x)

/-- `Serialize(c)` (43_serializer.md R180). -/
def serialize (p : Params) (c : Command) : Except FieldError Bytes :=
  match validate p c with
  | some e => .error e
  | none => .ok (layout p c)

/-- `TxStart(x)` with what the host does on either answer of Encode (R136): refused while `tx_busy`. -/
def State.txStartThen (s : State) (x : Bytes) (accept : State → State) (reject : ErrorCode → State → State) :
    StepOutcome :=
  if s.txBusy then .refused .txBusy
  else
    match encodeFrame s.params x with
    | .error e => .next (reject e s)
    | .ok f => .next (accept (s.load f))

/-- `TxStart(x)` (R136). -/
def State.txStart (s : State) (x : Bytes) : StepOutcome :=
  s.txStartThen x (fun t => t.answer .accepted) (fun e t => t.answer (.callError e))

/-- The host sends a command: Serialize, then TxStart; an error sends nothing (R180, R136). -/
def transmit (c : Command) (s : State) : StepOutcome :=
  match serialize s.params c with
  | .error e => .next (s.answer (.callError e.code))
  | .ok x => s.txStart x

/-- The session's send (60_exceptions.md R286): an error of Serialize or Encode returns to the caller and the session
stays `Idle`. -/
def request (c : Command) (s : State) : StepOutcome :=
  match s.session with
  | .awaiting _ _ => .refused .callerBlocked
  | .idle =>
    match serialize s.params c with
    | .error e => .next (s.finish (.callError e.code))
    | .ok x => s.txStartThen x (fun t => t.await c) (fun e t => t.finish (.callError e))

end Sys2Proof.Machine
end

