-- ==== Sys2Proof/Machine/Session.lean ====
section
/-! DEFINITION. What the host does with a received command: the master's session (60_exceptions.md R287, R288) and the slave's
responder (45_command_contract.md R236, R238). ENV rules. -/

namespace Sys2Proof.Machine

/-- The outcome an ACK gives the outstanding request (R288; D29 for an ACK OK to a READ). -/
def ackResult (p : Params) (req : Command) (err : Byte) : Result :=
  if err = p.errCode.byte .ok then
    match req with
    | .read _ _ _ => .noValues
    | _ => .success
  else .failed err

/-- The session matches an ACK by `req`; any other is stale and dropped (R288). With no request outstanding the frame is
dropped too (log 16). -/
def settleAck (req err : Byte) (s : State) : State :=
  match s.session with
  | .idle => s
  | .awaiting r _ => if req = r.code then s.finish (ackResult s.params r err) else s

/-- The session matches a READ_RESP by the outstanding READ's three fields (R288, R235). -/
def settleReadResp (a : U32) (w : Byte) (c : U16) (v : Bytes) (s : State) : State :=
  match s.session with
  | .awaiting (.read a' w' c') _ =>
    if a = a' ∧ w = w' ∧ c = c' then s.finish (.values (elements s.params.fieldEndian w.toNat c.toNat v)) else s
  | _ => s

/-- One tick of the host's clock: the timer expires when its last tick passes (R287; log 11). -/
def State.tick (s : State) : State :=
  match s.session with
  | .idle => s
  | .awaiting r n => if n ≤ 1 then s.finish .timeout else { s with session := .awaiting r (n - 1) }

/-- The protocol code of a target failure (R239). -/
def TargetError.code : TargetError → ErrorCode
  | .badAddr => .badAddr
  | .flashReadErr => .flashReadErr
  | .flashEraseErr => .flashEraseErr
  | .flashWriteErr => .flashWriteErr

/-- `ACK{req, err}` with an error code by name (R236). -/
def ackOf (p : Params) (req : Byte) (e : ErrorCode) : Command := .ack req (p.errCode.byte e)

/-- The responder's sequence for a request that deserialised (R238): Validate, then the target, then the answer.
`perform` is the access the target carries out and the answer it earns. -/
def serve (c : Command) (perform : State → State × Command) (s : State) : StepOutcome :=
  match validate s.params c with
  | some e => transmit (ackOf s.params c.code e.code) s
  | none => transmit (perform s).2 (perform s).1

/-- An access of the target: it fails with the target's present answer, or is performed (R238, R239). -/
def targetAccess (code : Byte) (perform : State → State × Command) (s : State) : State × Command :=
  match s.targetAnswer with
  | some e => (s, ackOf s.params code e.code)
  | none => perform s

/-- A response variant received as a request (R230, R238). -/
def serveResponse (code : Byte) (s : State) : StepOutcome := transmit (ackOf s.params code .badCmd) s

end Sys2Proof.Machine
end

