-- ==== Sys2Proof/Machine/Commands.lean ====
section
/-! DEFINITION. The meanings of the six commands and of the reserved command space, each with every use: sent
(43_serializer.md R182 to R187), sent as a session request (45_command_contract.md R240 to R243), received by the responder
(R231 to R236, R238), received by the session (60_exceptions.md R288). -/

namespace Sys2Proof.Machine

/-- ECHO at the slave: nothing is done with the bytes (R231). -/
def performEcho (s : State) : State × Command := (s, ackOf s.params echoCode .ok)

/-- READ at the slave (R232). -/
def performRead (a : U32) (w : Byte) (c : U16) (s : State) : State × Command :=
  (s, .readResp a w c (readElements s.params.fieldEndian s.mem a.toNat w.toNat c.toNat))

/-- WRITE at the slave (R233). -/
def performWrite (a : U32) (w : Byte) (c : U16) (v : Bytes) (s : State) : State × Command :=
  (s.setMem (writeElements s.params.fieldEndian s.mem a.toNat w.toNat v c.toNat), ackOf s.params writeCode .ok)

/-- SETCLR at the slave: one indivisible read-modify-write (R234, R71). -/
def performSetclr (a : U32) (w : Byte) (m v : Bytes) (s : State) : State × Command :=
  (s.setMem (memWrite s.mem a.toNat w.toNat (setclrValue w.toNat (memRead s.mem a.toNat w.toNat)
      (ofField s.params.fieldEndian m) (ofField s.params.fieldEndian v))),
    ackOf s.params setclrCode .ok)

/-- ECHO (R182, R203, R211, R231, R240). -/
def execEcho (u : ReqUse) (d : Bytes) (s : State) : StepOutcome :=
  match u with
  | .transmit => transmit (.echo d) s
  | .request => request (.echo d) s
  | .receive .serve => serve (.echo d) performEcho s
  | .receive .settle => .next s

/-- READ (R183, R204, R212, R232, R241). -/
def execRead (u : ReqUse) (a : U32) (w : Byte) (c : U16) (s : State) : StepOutcome :=
  match u with
  | .transmit => transmit (.read a w c) s
  | .request => request (.read a w c) s
  | .receive .serve => serve (.read a w c) (targetAccess readCode (performRead a w c)) s
  | .receive .settle => .next s

/-- WRITE (R184, R205, R213, R233, R242). -/
def execWrite (u : ReqUse) (a : U32) (w : Byte) (c : U16) (v : Bytes) (s : State) : StepOutcome :=
  match u with
  | .transmit => transmit (.write a w c v) s
  | .request => request (.write a w c v) s
  | .receive .serve => serve (.write a w c v) (targetAccess writeCode (performWrite a w c v)) s
  | .receive .settle => .next s

/-- SETCLR (R185, R206, R214, R234, R243). -/
def execSetclr (u : ReqUse) (a : U32) (w : Byte) (m v : Bytes) (s : State) : StepOutcome :=
  match u with
  | .transmit => transmit (.setclr a w m v) s
  | .request => request (.setclr a w m v) s
  | .receive .serve => serve (.setclr a w m v) (targetAccess setclrCode (performSetclr a w m v)) s
  | .receive .settle => .next s

/-- READ_RESP (R186, R207, R215, R235, R288). -/
def execReadResp (u : RespUse) (a : U32) (w : Byte) (c : U16) (v : Bytes) (s : State) : StepOutcome :=
  match u with
  | .transmit => transmit (.readResp a w c v) s
  | .receive .serve => serveResponse readRespCode s
  | .receive .settle => .next (settleReadResp a w c v s)

/-- ACK (R187, R208, R216, R236, R288). A reserved `err` is never sent, although Validate accepts it (30_encoding.md R98;
93_implementation_defined.md U3). -/
def execAck (u : RespUse) (req err : Byte) (s : State) : StepOutcome :=
  match u with
  | .transmit => if sendable s.params (.ack req err) then transmit (.ack req err) s else .refused .reservedErr
  | .receive .serve => serveResponse ackCode s
  | .receive .settle => .next (settleAck req err s)

/-- RESERVED_CMD: Deserialize answers BadCmd (R97, R202), which a responder NACKs with the `cmd` byte as `req` (R236,
R238) and a session drops (R288). -/
def execReservedCmd (u : RecvUse) (cmd : Byte) (_payload : Bytes) (s : State) : StepOutcome :=
  match u with
  | .serve => transmit (ackOf s.params cmd (DesError.code .badCmd)) s
  | .settle => .next s

end Sys2Proof.Machine
end

