-- ==== Sys2Proof/Machine/Deframer.lean ====
section
/-! DEFINITION. The receive deframer (42_deframer_rx.md R150 to R165): one link byte a step, the fold of the step over a
stream, Decode as that fold, Unstuff; and the meanings of the five link symbols. -/

namespace Sys2Proof.Machine

/-- The frame closes on `rx_buf[0 .. n)` with `n ≥ 2` (R155; 40_crc.md R124). -/
def closedFrame (p : Params) (buf : Bytes) : RxEvent :=
  if crc16 p.crc (buf.take (buf.length - 2)) = crcOfBytes p (buf.drop (buf.length - 2)) then
    .frame (buf.take (buf.length - 2))
  else .crcMismatch

/-- A FLAG inside a frame: empty frame, one-byte frame, or EOF (R156, R161, R155). -/
def Deframer.close (p : Params) (d : Deframer) : Deframer × Option RxEvent :=
  if d.rxLen = 0 then (d, none)
  else if d.rxLen = 1 then Deframer.report .malformed
  else Deframer.report (closedFrame p d.rxBuf)

/-- `RxStep(b)` (R151): total, at most one event. -/
def Deframer.step (p : Params) (d : Deframer) (b : Byte) : Deframer × Option RxEvent :=
  match d.rxState with
  | .hunt => if b = flagByte then ({ d with rxState := .inFrame }, none) else (d, none)
  | .inFrame =>
    if b = flagByte then d.close p
    else if b = escByte then ({ d with rxState := .esc }, none)
    else d.store p b
  | .esc => if b = flagByte then Deframer.report .malformed else d.store p (b ^^^ escXor)

/-- `RxRun(d, w)`: the final state and the events, each with the position of the byte that raised it, counted from `pos`
(R162). -/
def Deframer.run (p : Params) (d : Deframer) (pos : Nat) : Bytes → Deframer × List (Nat × RxEvent)
  | [] => (d, [])
  | b :: w =>
    match d.step p b with
    | (d', none) => Deframer.run p d' (pos + 1) w
    | (d', some e) =>
      match Deframer.run p d' (pos + 1) w with
      | (d'', es) => (d'', (pos, e) :: es)

/-- The answer of Decode: an event, or FrameIncomplete for `none` (R163, R165). -/
def decodeStream (p : Params) (w : Bytes) : Option RxEvent :=
  match (Deframer.run p .fresh 0 w).2 with
  | [] => none
  | (_, e) :: _ => some e

/-- `Unstuff(m)`; `none` is Dangling (R164). -/
def unstuff : Bytes → Option Bytes
  | [] => some []
  | [b] => if b = escByte then none else some [b]
  | b :: c :: r =>
    if b = escByte then (unstuff r).map fun t => (c ^^^ escXor) :: t
    else (unstuff (c :: r)).map fun t => b :: t

/-- One transaction on `link_rx` (10_state.md R32): the event port shows this byte's event, an earlier one is gone
(70_reset_and_hazards.md R306). -/
def State.takeByte (s : State) (b : Byte) : State := s.setRx (s.rx.step s.params b)

/-- The two bytes of an escape pair, in order. At most one of them raises an event, and the port shows it (log 5). -/
def State.takePair (s : State) (b c : Byte) : State :=
  let first := s.rx.step s.params b
  let second := first.1.step s.params c
  s.setRx (second.1, second.2 <|> first.2)

/-- FLAG (R151, R152, R155, R156, R160, R161). -/
def execFlag (s : State) : StepOutcome := .next (s.takeByte 0x7E)

/-- ESC_FLAG, the pair `7D 5E` (R157, R159). -/
def execEscFlag (s : State) : StepOutcome := .next (s.takePair 0x7D 0x5E)

/-- ESC_ESC, the pair `7D 5D` (R157, R159). -/
def execEscEsc (s : State) : StepOutcome := .next (s.takePair 0x7D 0x5D)

/-- ESC_OTHER, the pair `7D b` (R157, R159; R160 for a FLAG). -/
def execEscOther (b : Byte) (s : State) : StepOutcome := .next (s.takePair 0x7D b)

/-- LITERAL, one raw link byte (R153, R154; after an escape byte taken earlier, R157). -/
def execLiteral (b : Byte) (s : State) : StepOutcome := .next (s.takeByte b)

end Sys2Proof.Machine
end

