-- ==== Sys2Proof/Machine/Dispatch.lean ====
section
/-! DEFINITION. One arm for each instruction of spec/opcode_table.json. -/

namespace Sys2Proof.Machine

def exec (i : Instr) (s : State) : Host.Outcome State Fault Refusal :=
  match i with
  -- commands
  | .echo u d => Sys2Proof.Machine.execEcho u d s
  | .read u a w c => Sys2Proof.Machine.execRead u a w c s
  | .write u a w c v => Sys2Proof.Machine.execWrite u a w c v s
  | .setclr u a w m v => Sys2Proof.Machine.execSetclr u a w m v s
  | .readResp u a w c v => Sys2Proof.Machine.execReadResp u a w c v s
  | .ack u r e => Sys2Proof.Machine.execAck u r e s
  | .reservedCmd u b pl => Sys2Proof.Machine.execReservedCmd u b pl s
  -- link symbols
  | .flag => Sys2Proof.Machine.execFlag s
  | .escFlag => Sys2Proof.Machine.execEscFlag s
  | .escEsc => Sys2Proof.Machine.execEscEsc s
  | .escOther b => Sys2Proof.Machine.execEscOther b s
  | .literal b => Sys2Proof.Machine.execLiteral b s

end Sys2Proof.Machine
end

