-- ==== Sys2Proof/Machine/Transactions.lean ====
section
/-! DEFINITION. The transactions that are no row of the opcode table: a lone escape byte (42_deframer_rx.md R159), TxEmit and
TxStart (41_framer_tx.md R136, R137), FlashUpdate (45_command_contract.md R244), received bytes that do not deserialise
(R238, R288), the timer (R287), RxFlush and reset (10_state.md R30, R31), and the target's own changes. -/

namespace Sys2Proof.Machine

/-- Reset of a running end: the values of R30, no event, the session `Idle` (R285) and no operation outstanding. The
parameters, the inputs still to come and the slave's registers are not the block's (R20, R300; log 17). -/
def State.resetBlock (s : State) : State :=
  { s with rx := .fresh, rxEvent := none, txQueue := [], linkTx := [], session := .idle, flash := [], result := none }

/-- `RxFlush`: the effect of reset on `(rx_state, rx_len, rx_buf)` alone (R31). -/
def State.rxFlush (s : State) : State := { s with rx := .fresh }

/-- The source of an update of `len` bytes. R244 gives a source buffer shorter than `len` no precondition and no content
beyond its end: the bytes missing are free values, so that every chunk is full (DESIGN CHOICE; log 23). -/
def flashSource (src : Bytes) (len : Nat) : Bytes :=
  src ++ (List.range (len - src.length)).map (fun i => Config.sourceBeyond src i)

/-- The Writes of FlashUpdate from byte `off` on, `n` chunks, the source copied verbatim (R244). What stands in for a
source buffer shorter than the update is `flashSource`'s (log 23). -/
def flashChunks (off : Nat) (src : Bytes) : Nat → List Command
  | 0 => []
  | n + 1 =>
    .write (Config.flashBase + BitVec.ofNat 32 off) 4 256 (src.take flashChunk)
      :: flashChunks (off + flashChunk) (src.drop flashChunk) n

/-- FlashUpdate's preconditions, "enforced before any write is issued" (R244). -/
def flashAllowed (off len : Nat) : Bool := decide (off + len ≤ flashWindow) && decide (len % flashSector = 0)

/-- FlashUpdate begins: its Writes are queued; with none to make it returns OK at once (R244). -/
def State.flashBegin (s : State) (off len : Nat) (src : Bytes) : StepOutcome :=
  if s.session ≠ .idle ∨ s.flash ≠ [] then .refused .callerBlocked
  else if ¬ flashAllowed off len then .refused .flashPrecondition
  else if len / flashChunk = 0 then .next (s.answer .success)
  else .next { s with flash := flashChunks off (flashSource src len) (len / flashChunk), result := none }

/-- Received bytes that do not deserialise: the responder NACKs them with the first byte as `req`, 0x00 if there is none
(R236, R238); the session drops them (R288). -/
def rejected (u : RecvUse) (x : Bytes) (e : DesError) (s : State) : StepOutcome :=
  match u with
  | .serve => transmit (ackOf s.params (x.headD 0x00) e.code) s
  | .settle => .next s

/-- One transaction. -/
def transact (a : Act) (s : State) : StepOutcome :=
  match a with
  | .linkByte b => .next (s.takeByte b)
  | .linkReady => .next s.txEmit
  | .txStart x => s.txStart x
  | .flashUpdate off len src => s.flashBegin off len src
  | .rejected u x e => rejected u x e s
  | .blocked => .refused .callerBlocked
  | .tick => .next s.tick
  | .rxFlush => .next s.rxFlush
  | .reset => .next s.resetBlock
  | .targetAnswer e => .next { s with targetAnswer := e }
  | .targetChange x b => .next (s.setMem (Memory.write s.mem x.toNat b))
  | .nothing => .next s
  | .idle => .next s.txEmit

end Sys2Proof.Machine
end

