-- ==== Sys2Proof/Machine/Fetch.lean ====
section
/-! DEFINITION. Where a step takes what it runs: the first of `State.inputs`, decoded where it is bytes (42_deframer_rx.md
R151; 45_command_contract.md R238; 60_exceptions.md R288), and how an instruction is put there. -/

namespace Sys2Proof.Machine

/-- The next link bytes, at most two, that arrive with nothing between them. -/
def linkWindow : List Input → Bytes
  | .linkByte b :: .linkByte c :: _ => [b, c]
  | .linkByte b :: _ => [b]
  | _ => []

/-- A whole link symbol, or the lone escape byte in front (log 5). -/
def fetchLink (b : Byte) (s : State) : Fetched :=
  match decode s.params .link (linkWindow s.inputs) with
  | .ok (i, after) => .instr i (s.advance ((linkWindow s.inputs).length - after.length))
  | .error _ => .act (.linkByte b) (s.advance 1)

/-- The host takes the event `e` that the step before raised: a received command is an instruction; bytes that do not
deserialise are handled by `rejected`; the other events are dropped by both ends (R238, R288). -/
def fetchEvent (u : RecvUse) (e : Option RxEvent) (s : State) : Fetched :=
  match e with
  | some (.frame x) =>
    match decodeFrame s.params u x with
    | .ok i => .instr i s
    | .error e => .act (.rejected u x e) s
  | some _ => .act .nothing s
  | none => .act .nothing s

/-- An operation's request; while FlashUpdate is between two Writes its caller is blocked (R286). -/
def fetchOp (i : Instr) (s : State) : Fetched := if s.flash = [] then .instr i s else .act .blocked s

/-- FlashUpdate's next Write (R244). -/
def fetchChunk (s : State) : Fetched :=
  match s.flash with
  | .write a w c v :: rest => .instr (.write .request a w c v) { s with flash := rest }
  | _ => .act .nothing s

/-- What the next step runs. The event of the step before reaches the host here or is lost (R272, R306).
DESIGN CHOICE (log 24): `call`, `txStart` and `serve` are taken whatever the session's state, a request variant included. That
the host sends nothing else while a request is outstanding (60_exceptions.md R285, R290) is its duty and no check of the block;
only the session's own sends are refused then (R286). -/
def fetch (s : State) : Fetched :=
  match s.inputs with
  | [] => .act .idle (s.advance 0)
  | .linkByte b :: _ => fetchLink b s
  | .linkReady :: _ => .act .linkReady (s.advance 1)
  | .txStart x :: _ => .act (.txStart x) (s.advance 1)
  | .call c :: _ => .instr c.transmitted (s.advance 1)
  | .echoOp d :: _ => fetchOp (.echo .request d) (s.advance 1)
  | .readOp a w c :: _ => fetchOp (.read .request a w c) (s.advance 1)
  | .writeOp a w c v :: _ => fetchOp (.write .request a w c v) (s.advance 1)
  | .setclrOp a w m v :: _ => fetchOp (.setclr .request a w m v) (s.advance 1)
  | .flashUpdate off len src :: _ => .act (.flashUpdate off len src) (s.advance 1)
  | .flashNext :: _ => fetchChunk (s.advance 1)
  | .serve :: _ => fetchEvent .serve s.rxEvent (s.advance 1)
  | .settle :: _ => fetchEvent .settle s.rxEvent (s.advance 1)
  | .tick :: _ => .act .tick (s.advance 1)
  | .rxFlush :: _ => .act .rxFlush (s.advance 1)
  | .reset :: _ => .act .reset (s.advance 1)
  | .targetAnswer e :: _ => .act (.targetAnswer e) (s.advance 1)
  | .targetChange x b :: _ => .act (.targetChange x b) (s.advance 1)

/-- The input in front of the others. -/
def State.push (s : State) (x : Input) : State := { s with inputs := x :: s.inputs }

/-- A received frame on the event port and the host about to take it. -/
def State.pushFrame (s : State) (u : RecvUse) (i : Instr) : State :=
  { s with
    rxEvent := some (.frame (encode s.params i))
    inputs := (match u with | .serve => Input.serve | .settle => Input.settle) :: s.inputs }

/-- A request variant at the port of its use. -/
def State.pushRequest (s : State) (u : ReqUse) (call op : Input) (i : Instr) : State :=
  match u with
  | .transmit => s.push call
  | .request => ({ s with flash := [] } : State).push op
  | .receive r => s.pushFrame r i

/-- A response variant at the port of its use. -/
def State.pushResponse (s : State) (u : RespUse) (call : Input) (i : Instr) : State :=
  match u with
  | .transmit => s.push call
  | .receive r => s.pushFrame r i

/-- The instruction placed where the next step fetches it. -/
def State.present (s : State) (i : Instr) : State :=
  match i with
  | .echo u d => s.pushRequest u (.call (.echo d)) (.echoOp d) i
  | .read u a w c => s.pushRequest u (.call (.read a w c)) (.readOp a w c) i
  | .write u a w c v => s.pushRequest u (.call (.write a w c v)) (.writeOp a w c v) i
  | .setclr u a w m v => s.pushRequest u (.call (.setclr a w m v)) (.setclrOp a w m v) i
  | .readResp u a w c v => s.pushResponse u (.call (.readResp a w c v)) i
  | .ack u r e => s.pushResponse u (.call (.ack r e)) i
  | .reservedCmd u _ _ => s.pushFrame u i
  | .flag => s.push (.linkByte 0x7E)
  | .escFlag => (s.push (.linkByte 0x5E)).push (.linkByte 0x7D)
  | .escEsc => (s.push (.linkByte 0x5D)).push (.linkByte 0x7D)
  | .escOther b => (s.push (.linkByte b)).push (.linkByte 0x7D)
  | .literal b => s.push (.linkByte b)

end Sys2Proof.Machine
end

