-- ==== Sys2Proof/Machine/Step.lean ====
section
/-! DEFINITION. One step of the machine: run what stands first in `State.inputs`; with nothing there, the block emits the next
queued byte (70_reset_and_hazards.md R312) or stays as it is (R303). -/

namespace Sys2Proof.Machine

def step (s : State) : Host.Outcome State Fault Refusal :=
  match fetch s with
  | .instr i t => exec i t
  | .act a t => transact a t

/-- The instruction of an opcode-table word placed where `step` fetches next; the word's raw bytes on the link where it is
no instruction (log 6). -/
def State.withFetchWord (s : State) (nbits w : Nat) : State :=
  match decodeTableWord nbits w with
  | some i => s.present i
  | none => { s with inputs := (tableBytes nbits w).2.map Input.linkByte ++ s.inputs }

end Sys2Proof.Machine
end

