-- ==== Sys2Proof/Safety.lean ====
section
/-! DEFINITION. What counts as a safe run: the invariants of the state (10_state.md R25, R26; 20_memory.md R50; 60_exceptions.md
R285), what a step may stop on (00_scope.md R13), and what the link may do to a stream (20_memory.md R67). -/

namespace Sys2Proof.Machine

/-- R25: `rx_state = HUNT` implies `rx_len = 0`, and `rx_len ≤ RX_CAP` always. -/
def Deframer.Inv (p : Params) (d : Deframer) : Prop := (d.rxState = .hunt → d.rxLen = 0) ∧ d.rxLen ≤ p.rxCap

/-- The request variants (45_command_contract.md R230). -/
def isRequest : Command → Bool
  | .echo _ => true
  | .read _ _ _ => true
  | .write _ _ _ _ => true
  | .setclr _ _ _ _ => true
  | .readResp _ _ _ _ => false
  | .ack _ _ => false

/-- The Writes of FlashUpdate (R244). -/
def isChunk : Command → Bool
  | .write _ w c _ => decide (w = 4) && decide (c = 256)
  | _ => false

/-- The outstanding request is a request variant that Validate accepts (R286; 43_serializer.md R180). -/
def Session.Inv (p : Params) : Session → Prop
  | .idle => True
  | .awaiting r _ => isRequest r = true ∧ validate p r = none

/-- The invariant of the machine. -/
structure State.Inv (s : State) : Prop where
  /-- R25 -/
  rx : s.rx.Inv s.params
  /-- R26: `|tx_queue| ≤ RAW_CAP` -/
  tx : s.txQueue.length ≤ s.params.rawCap
  /-- the register space keeps its canonical form -/
  mem : Memory.wf s.mem
  /-- the session's request is one that can be outstanding -/
  session : s.session.Inv s.params
  /-- FlashUpdate's remaining calls are its Writes -/
  flash : ∀ c ∈ s.flash, isChunk c = true

/-- R138: what has left the block and what is still queued are together whole frames, one after the other. -/
def State.LinkIsFrames (s : State) : Prop :=
  ∃ xs : List Bytes, (∀ x ∈ xs, x.length ≤ s.params.maxCmdLen) ∧
    s.linkTx ++ s.txQueue = (xs.map (frameOf s.params)).flatten

/-- The caller misuse that each refusal reports (R13). -/
def State.Misuse (s : State) : Refusal → Prop
  | .txBusy => s.txBusy = true
  | .callerBlocked => s.session ≠ .idle ∨ s.flash ≠ []
  | .reservedErr => ∃ req err, s.inputs.head? = some (.call (.ack req err)) ∧ reservedErr s.params err = true
  | .flashPrecondition =>
    ∃ off len src, s.inputs.head? = some (.flashUpdate off len src) ∧ flashAllowed off len = false
  | _ => False

/-- The received stream is the sent stream with any bits flipped and any bytes deleted (R67). -/
inductive LinkDelivers : Bytes → Bytes → Prop
  | done : LinkDelivers [] []
  | taken (b flips : Byte) {x y : Bytes} : LinkDelivers x y → LinkDelivers (b :: x) ((b ^^^ flips) :: y)
  | lost (b : Byte) {x y : Bytes} : LinkDelivers x y → LinkDelivers (b :: x) y

end Sys2Proof.Machine
end

