-- ==== Sys2Proof/Certificates/Slice0/Obligations.lean ====
section
/-! DEFINITION. The statements for the provers. Each says which rule of spec/ it formalises; none is about a program, and every
one holds for every parameter record of R8 unless it names the values. -/

open Sys2Proof Sys2Proof.Machine

/-! ### Encodings -/

/-- The decoder gives back every well-formed instruction from its encoding, at every port, and leaves the link bytes that
follow a symbol. -/
def Obligations.DecodeInvertsEncode : Prop :=
  (∀ (p : Params) (i : Instr), i.wellFormed p = true → decode p i.port (encode p i) = .ok (i, [])) ∧
  (∀ (p : Params) (i : Instr) (rest : Bytes), i.wellFormed p = true → i.port = .link →
    decode p .link (encode p i ++ rest) = .ok (i, rest))

/-- R218: the round trip of the codec, both ways. -/
def Obligations.CodecRoundTrip : Prop :=
  (∀ (p : Params) (c : Command), p.admissible → validate p c = none → deserialize p (layout p c) = .ok c) ∧
  (∀ (p : Params) (x : Bytes) (c : Command), deserialize p x = .ok c → layout p c = x)

/-- R190: a command that Validate accepts comes back from its Layout, and its `len` field, the two bytes after `cmd`, holds
`ExpectedLen` (R91). -/
def Obligations.LenFieldIsExpectedLen : Prop :=
  ∀ (p : Params) (c : Command), p.admissible → validate p c = none →
    deserialize p (layout p c) = .ok c ∧
    ofField p.fieldEndian (((layout p c).drop 1).take 2) = c.expectedLen

/-- R189: the sizes of Serialize's results with the default parameters; Encode never fails on one. -/
def Obligations.SerializeResultSizes : Prop :=
  ∀ (c : Command) (x : Bytes), serialize Params.default c = .ok x →
    4 ≤ x.length ∧ x.length ≤ 1034 ∧ (∃ f, encodeFrame Params.default x = .ok f) ∧
    match c with
    | .echo d => x.length = 3 + d.length
    | .read _ _ _ => x.length = 10
    | .write _ w n _ => x.length = 10 + n.toNat * w.toNat ∧ 11 ≤ x.length
    | .setclr _ _ _ _ => x.length = 10 ∨ x.length = 12 ∨ x.length = 16
    | .readResp _ w n _ => x.length = 10 + n.toNat * w.toNat ∧ 11 ≤ x.length
    | .ack _ _ => x.length = 5

/-- Words written out from the spec's layouts (R86, R87, R90; the table's escape pairs) decode to the instructions they stand
for, with the default parameters. -/
def Obligations.SpecWordsDecode : Prop :=
  decode Params.default (.frame .serve) [0x02, 0x07, 0x00, 0x00, 0x10, 0x00, 0x40, 0x04, 0x02, 0x00]
    = .ok (.read (.receive .serve) 0x40001000 4 2, []) ∧
  decode Params.default (.frame .serve) [0x03, 0x08, 0x00, 0x03, 0x00, 0x00, 0x00, 0x01, 0x01, 0x00, 0x7E]
    = .ok (.write (.receive .serve) 3 1 1 [0x7E], []) ∧
  decode Params.default (.frame .settle) [0x06, 0x02, 0x00, 0x03, 0x05] = .ok (.ack (.receive .settle) 0x03 0x05, []) ∧
  decodeTableWord 8 0x7E = some .flag ∧
  decodeTableWord 16 0x7D5E = some .escFlag ∧
  decodeTableWord 16 0x7D5D = some .escEsc

/-- R201: the overall length and the header are checked before the tag: too short, out of range or at odds with its own `len`
is BadCmdLen; anything else goes to the variant's rule. Which name goes with which mismatch, and the order, is the spec's
decision D18. -/
def Obligations.LengthIsCheckedBeforeTheTag : Prop :=
  ∀ (p : Params) (x : Bytes),
    (x.length < 3 ∨ x.length < p.minCmdLen ∨ p.maxCmdLen < x.length → deserialize p x = .error .badCmdLen) ∧
    (∀ cmd l0 l1 pl, x = cmd :: l0 :: l1 :: pl → p.minCmdLen ≤ x.length → x.length ≤ p.maxCmdLen →
      (x.length ≠ 3 + ofField p.fieldEndian [l0, l1] → deserialize p x = .error .badCmdLen) ∧
      (x.length = 3 + ofField p.fieldEndian [l0, l1] → deserialize p x = desVariant p cmd pl))

/-- R202: BadCmd is reported exactly for the tags that select no variant (the spec's decision D18). -/
def Obligations.BadCmdExactlyForReservedTags : Prop :=
  ∀ (p : Params) (cmd : Byte) (pl : Bytes),
    desVariant p cmd pl = .error .badCmd ↔ ¬ (1 ≤ cmd.toNat ∧ cmd.toNat ≤ 6)

/-- R203 to R208 for a little-endian build, byte by byte: which payload lengths each variant takes and which byte of the payload
goes where (R92); `count × width` is a product of naturals. That every mismatch is BadPayloadLen is the spec's decision D18. -/
def Obligations.FieldsAreReadFromTheirOffsets : Prop :=
  ∀ (p : Params) (pl v : Bytes) (a0 a1 a2 a3 w c0 c1 q e : Byte), p.fieldEndian = .little →
    let addr : U32 := a3 ++ a2 ++ a1 ++ a0
    let count : U16 := c1 ++ c0
    let bad : Except DesError Command := .error .badPayloadLen
    desVariant p 0x01 pl = (if pl.length < 1 then bad else .ok (.echo pl)) ∧
    (pl.length ≠ 7 → desVariant p 0x02 pl = bad) ∧
    desVariant p 0x02 [a0, a1, a2, a3, w, c0, c1] = .ok (.read addr w count) ∧
    (pl.length < 7 → desVariant p 0x03 pl = bad ∧ desVariant p 0x05 pl = bad) ∧
    desVariant p 0x03 ([a0, a1, a2, a3, w, c0, c1] ++ v) =
      (if v.length = (c0.toNat + 256 * c1.toNat) * w.toNat then .ok (.write addr w count v) else bad) ∧
    desVariant p 0x05 ([a0, a1, a2, a3, w, c0, c1] ++ v) =
      (if v.length = (c0.toNat + 256 * c1.toNat) * w.toNat then .ok (.readResp addr w count v) else bad) ∧
    (pl.length < 5 → desVariant p 0x04 pl = bad) ∧
    desVariant p 0x04 ([a0, a1, a2, a3, w] ++ v) =
      (if v.length = 2 * w.toNat then .ok (.setclr addr w (v.take w.toNat) (v.drop w.toNat)) else bad) ∧
    (pl.length ≠ 2 → desVariant p 0x06 pl = bad) ∧
    desVariant p 0x06 [q, e] = .ok (.ack q e)

/-- R91, R203 to R208: whatever deserialises has the length its variant and fields imply, and its own tag. -/
def Obligations.DeserializedLengthIsImplied : Prop :=
  ∀ (p : Params) (x : Bytes) (c : Command), deserialize p x = .ok c →
    x.length = 3 + c.expectedLen ∧ x.head? = some c.code

/-- R211 to R217: Validate reports the first failing check in the order width, count, size of the variable part, alignment (the
order, and the code for ECHO, are the spec's decision D19). -/
def Obligations.ValidateReportsFirstFailure : Prop :=
  ∀ (p : Params) (a : U32) (w : Byte) (n : U16) (d m v : Bytes) (req err : Byte),
    let badW := ¬ (w.toNat = 1 ∨ w.toNat = 2 ∨ w.toNat = 4)
    let badN := n.toNat = 0 ∨ 256 < n.toNat
    let badA := a.toNat % w.toNat ≠ 0
    let sized := v.length = n.toNat * w.toNat
    (validate p (.echo d) = if d.length < 1 ∨ p.echoMax < d.length then some .badPayloadLen else none) ∧
    (badW → validate p (.read a w n) = some .badWidth ∧ validate p (.write a w n v) = some .badWidth ∧
      validate p (.setclr a w m v) = some .badWidth ∧ validate p (.readResp a w n v) = some .badWidth) ∧
    (¬ badW → badN → validate p (.read a w n) = some .badCount ∧ validate p (.write a w n v) = some .badCount ∧
      validate p (.readResp a w n v) = some .badCount) ∧
    (¬ badW → ¬ badN → ¬ sized → validate p (.write a w n v) = some .badPayloadLen ∧
      validate p (.readResp a w n v) = some .badPayloadLen) ∧
    (¬ badW → (m.length ≠ w.toNat ∨ v.length ≠ w.toNat) → validate p (.setclr a w m v) = some .badPayloadLen) ∧
    (¬ badW → ¬ badN → badA → validate p (.read a w n) = some .notAligned ∧
      (sized → validate p (.write a w n v) = some .notAligned ∧ validate p (.readResp a w n v) = some .notAligned)) ∧
    (¬ badW → m.length = w.toNat → v.length = w.toNat → badA → validate p (.setclr a w m v) = some .notAligned) ∧
    (¬ badW → ¬ badN → ¬ badA → validate p (.read a w n) = none ∧
      (sized → validate p (.write a w n v) = none ∧ validate p (.readResp a w n v) = none)) ∧
    (¬ badW → m.length = w.toNat → v.length = w.toNat → ¬ badA → validate p (.setclr a w m v) = none) ∧
    validate p (.ack req err) = none

/-! ### The CRC unit -/

/-- R125: where CRC_POLY has its bit 0 set, flipping one bit of one byte changes the CRC, whatever stands before and after. -/
def Obligations.CrcDetectsSingleBitFlip : Prop :=
  ∀ (c : CrcParams) (before after : Bytes) (b : Byte) (k : Nat), c.poly.getLsbD 0 = true → k < 8 →
    crc16 c (before ++ [b] ++ after) ≠ crc16 c (before ++ [b ^^^ (1#8 <<< k)] ++ after)

/-! ### The transmit framer -/

/-- R139: a FLAG at each end and nowhere else, every escape byte followed by `5E` or `5D`, and Decode gives the command
back. -/
def Obligations.EncodedFramesAreDelimitedAndDecode : Prop :=
  ∀ (p : Params) (x : Bytes), x.length ≤ p.maxCmdLen → ∃ f, encodeFrame p x = .ok f ∧
    f.head? = some 0x7E ∧ f.getLast? = some 0x7E ∧ (∀ b ∈ (f.drop 1).dropLast, b ≠ 0x7E) ∧
    (∀ before after, f = before ++ [0x7D] ++ after → after.head? = some 0x5E ∨ after.head? = some 0x5D) ∧
    decodeStream p f = some (.frame x)

/-- R135: the length of a frame. -/
def Obligations.FrameLength : Prop :=
  ∀ (p : Params) (x : Bytes), x.length ≤ p.maxCmdLen → ∃ f, encodeFrame p x = .ok f ∧
    x.length + 4 ≤ f.length ∧ f.length ≤ 2 * (x.length + 2) + 2 ∧ 2 * (x.length + 2) + 2 ≤ p.rawCap ∧
    f.length = x.length + 4 + (x ++ crcBytes p (crc16 p.crc x)).countP (fun b => b = 0x7E || b = 0x7D)

/-- R164: Unstuff undoes Stuff, and it is what the deframer accumulates between an SOF and the next FLAG: the destuffed bytes
while they fit, with the state ESC exactly when the bytes end in a dangling escape. -/
def Obligations.DeframerAccumulatesUnstuffedBytes : Prop :=
  (∀ t : Bytes, unstuff (stuff t) = some t) ∧
  ∀ (p : Params) (m : Bytes) (pos : Nat), (∀ b ∈ m, b ≠ 0x7E) →
    (∀ t, unstuff m = some t → t.length ≤ p.rxCap →
      Deframer.run p ⟨.inFrame, []⟩ pos m = (⟨.inFrame, t⟩, [])) ∧
    ((Deframer.run p ⟨.inFrame, []⟩ pos m).2 = [] →
      ((Deframer.run p ⟨.inFrame, []⟩ pos m).1.rxState = .esc ↔ unstuff m = none))

/-- R136: TxStart is refused while `tx_busy`; an over-long input is answered BAD_CMD_LEN and queues nothing; any other loads
its frame. No byte reaches the link. One frame at a time is the spec's decision D25, the error's name D17. -/
def Obligations.TxStartRule : Prop :=
  ∀ (s : State) (x : Bytes) (rest : List Input), s.inputs = .txStart x :: rest →
    (s.txQueue ≠ [] → step s = .refused .txBusy) ∧
    (s.txQueue = [] → s.params.maxCmdLen < x.length →
      step s = .next { s with inputs := rest, rxEvent := none, result := some (.callError .badCmdLen) }) ∧
    (s.txQueue = [] → x.length ≤ s.params.maxCmdLen →
      step s = .next { s with
        inputs := rest
        rxEvent := none
        txQueue := frameOf s.params x
        result := some .accepted })

/-- R137: each TxEmit hands the head of `tx_queue` to the link, and as many steps as the queue has bytes empty it, in order. -/
def Obligations.QueueDrainsInOrder : Prop :=
  (∀ (s : State) (b : Byte) (q : Bytes) (rest : List Input), s.inputs = .linkReady :: rest → s.txQueue = b :: q →
    step s = .next { s with inputs := rest, rxEvent := none, txQueue := q, linkTx := s.linkTx ++ [b] }) ∧
  (∀ s : State, s.inputs = [] →
    Host.Core.run Sys2Proof.core s.txQueue.length s = .next { s with
      rxEvent := if s.txQueue = [] then s.rxEvent else none
      txQueue := []
      linkTx := s.linkTx ++ s.txQueue })

/-- R138: what has been written to the link since reset, with what is still queued, is whole frames, one after the other; it
holds after reset and every step keeps it. -/
def Obligations.LinkCarriesWholeFrames : Prop :=
  State.reset.LinkIsFrames ∧ ∀ s t : State, s.LinkIsFrames → step s = .next t → t.LinkIsFrames

/-! ### The receive deframer -/

/-- R152, R153: in HUNT a FLAG is the SOF, every other byte, 0x7D included, is discarded. -/
def Obligations.HuntScansForSof : Prop :=
  ∀ (s : State), s.rx.rxState = .hunt →
    exec .flag s = .next { s with rx := ⟨.inFrame, s.rx.rxBuf⟩, rxEvent := none } ∧
    ∀ b : Byte, b ≠ 0x7E → exec (.literal b) s = .next { s with rxEvent := none }

/-- R155: a FLAG after two or more destuffed bytes closes the frame: the last two are the received CRC; the rest is delivered
if it matches and dropped if not, and the deframer hunts (the closing FLAG opens no frame: the spec's decision D11). -/
def Obligations.FlagClosesAndChecksFrame : Prop :=
  ∀ (s : State) (data : Bytes) (c0 c1 : Byte), s.rx = ⟨.inFrame, data ++ [c0, c1]⟩ →
    (crc16 s.params.crc data = crcOfBytes s.params [c0, c1] →
      exec .flag s = .next { s with rx := ⟨.hunt, []⟩, rxEvent := some (.frame data) }) ∧
    (crc16 s.params.crc data ≠ crcOfBytes s.params [c0, c1] →
      exec .flag s = .next { s with rx := ⟨.hunt, []⟩, rxEvent := some .crcMismatch })

/-- R156, R160, R161: a FLAG directly after a FLAG changes nothing (the spec's decision D12), one after a single byte (D13) or
after an escape byte is Malformed. -/
def Obligations.FlagInShortOrDanglingFrame : Prop :=
  ∀ (s : State),
    (s.rx = ⟨.inFrame, []⟩ → exec .flag s = .next { s with rxEvent := none }) ∧
    (∀ b, s.rx = ⟨.inFrame, [b]⟩ →
      exec .flag s = .next { s with rx := ⟨.hunt, []⟩, rxEvent := some .malformed }) ∧
    (s.rx.rxState = .esc → exec .flag s = .next { s with rx := ⟨.hunt, []⟩, rxEvent := some .malformed })

/-- R154, R157 with Store (R158) spelled out: a literal byte is stored as it is, the byte after an escape byte is stored with
0x20 flipped, whatever it is (the spec's decision D14); the first byte that does not fit raises FrameTooLong (D15). -/
def Obligations.DataBytesAreStoredOrOverflow : Prop :=
  ∀ (s : State) (b : Byte), b ≠ 0x7E →
    (s.rx.rxState = .inFrame → b ≠ 0x7D →
      exec (.literal b) s = .next
        (if s.rx.rxBuf.length = s.params.rxCap then { s with rx := ⟨.hunt, []⟩, rxEvent := some .frameTooLong }
         else { s with rx := ⟨.inFrame, s.rx.rxBuf ++ [b]⟩, rxEvent := none })) ∧
    (s.rx.rxState = .esc →
      exec (.literal b) s = .next
        (if s.rx.rxBuf.length = s.params.rxCap then { s with rx := ⟨.hunt, []⟩, rxEvent := some .frameTooLong }
         else { s with rx := ⟨.inFrame, s.rx.rxBuf ++ [b ^^^ 0x20]⟩, rxEvent := none }))

/-- The escape pairs ESC_FLAG, ESC_ESC and ESC_OTHER in every state of the deframer (R153, R157, R159): discarded in HUNT; in
a frame one byte is stored, 0x7E, 0x7D or `b` with 0x20 flipped (the spec's decision D14); after a pending escape byte the
`7D` is itself the second half of a pair and the pair's second byte is taken as it comes; the dangling form (R160); and the
lone escape byte in a frame (R159). FrameTooLong is raised at the overflowing byte (the spec's decision D15). That both bytes
run in one step, with the port then showing the event of whichever byte raised one, is the model's reading (log 5). -/
def Obligations.EscapePairs : Prop :=
  ∀ (s : State) (b : Byte) (i : Instr),
    (i = .escFlag ∧ b = 0x5E) ∨ (i = .escEsc ∧ b = 0x5D) ∨ (i = .escOther b ∧ b ≠ 0x7E ∧ b ≠ 0x5E ∧ b ≠ 0x5D) →
    (s.rx.rxState = .hunt → exec i s = .next { s with rxEvent := none }) ∧
    (s.rx.rxState = .inFrame → exec i s = .next
      (if s.rx.rxBuf.length = s.params.rxCap then { s with rx := ⟨.hunt, []⟩, rxEvent := some .frameTooLong }
       else { s with rx := ⟨.inFrame, s.rx.rxBuf ++ [b ^^^ 0x20]⟩, rxEvent := none })) ∧
    (s.rx.rxState = .esc → exec i s = .next
      (if s.rx.rxBuf.length = s.params.rxCap then { s with rx := ⟨.hunt, []⟩, rxEvent := some .frameTooLong }
       else if b = 0x7D then { s with rx := ⟨.esc, s.rx.rxBuf ++ [0x5D]⟩, rxEvent := none }
       else if s.rx.rxBuf.length + 1 = s.params.rxCap then
         { s with rx := ⟨.hunt, []⟩, rxEvent := some .frameTooLong }
       else { s with rx := ⟨.inFrame, s.rx.rxBuf ++ [0x5D, b]⟩, rxEvent := none })) ∧
    (s.rx.rxState = .inFrame → exec (.escOther 0x7E) s =
      .next { s with rx := ⟨.hunt, []⟩, rxEvent := some .malformed }) ∧
    (s.rx.rxState = .inFrame → s.takeByte 0x7D = { s with rx := ⟨.esc, s.rx.rxBuf⟩, rxEvent := none })

/-- R151, R162: running a link symbol is running its raw bytes one by one, and at most one of them raises an event. That one
step runs both bytes of a pair, and that the port shows whichever byte's event, is the model's reading (log 5). -/
def Obligations.SymbolsRunByteByByte : Prop :=
  ∀ (i : Instr) (s : State), i.port = .link → i.wellFormed s.params = true →
    ∃ t, exec i s = .next t ∧ t.rx = (Deframer.run s.params s.rx 0 (encode s.params i)).1 ∧
      (Deframer.run s.params s.rx 0 (encode s.params i)).2.length ≤ 1 ∧
      t.rxEvent = (Deframer.run s.params s.rx 0 (encode s.params i)).2.head?.map Prod.snd

/-- R270: whatever a link byte reports, the deframer is back in HUNT with nothing stored, the event is out, and nothing else
changes. -/
def Obligations.ReportsChangeOnlyTheDeframer : Prop :=
  ∀ (s : State) (b : Byte) (e : RxEvent), (s.takeByte b).rxEvent = some e →
    s.takeByte b = { s with rx := ⟨.hunt, []⟩, rxEvent := some e }

/-- Frame of the five link symbols: they write `rx_state`, `rx_len`, `rx_buf` and the event port, nothing else (R150). -/
def Obligations.LinkSymbolsFrame : Prop :=
  ∀ (i : Instr) (s t : State), i.port = .link → exec i s = .next t →
    t.params = s.params ∧ t.txQueue = s.txQueue ∧ t.linkTx = s.linkTx ∧ t.inputs = s.inputs ∧ t.result = s.result ∧
    t.session = s.session ∧ t.flash = s.flash ∧ t.targetAnswer = s.targetAnswer ∧
    ∀ a, Memory.read t.mem a = Memory.read s.mem a

/-- R167: from reset, an encoded command raises exactly one event, the command, at its last byte, and leaves the deframer as
reset does. -/
def Obligations.EncodedFramesAreReceived : Prop :=
  ∀ (p : Params) (x f : Bytes), encodeFrame p x = .ok f →
    Deframer.run p .fresh 0 f = (.fresh, [(f.length - 1, .frame x)]) ∧ decodeStream p f = some (.frame x)

/-- R168: after one extra FLAG every state receives the next frame; HUNT and an empty frame need no extra FLAG; from the middle
of a frame the next frame is lost and the one after it is received. -/
def Obligations.DeframerResynchronises : Prop :=
  ∀ (p : Params) (d : Deframer) (x f : Bytes), d.Inv p → encodeFrame p x = .ok f →
    (∃ es, Deframer.run p d 0 (0x7E :: f) = (.fresh, es) ∧ es.getLast? = some (f.length, .frame x)) ∧
    (d.rxState = .hunt ∨ d = ⟨.inFrame, []⟩ →
      Deframer.run p d 0 f = (.fresh, [(f.length - 1, .frame x)])) ∧
    (d.rxState = .esc ∨ (d.rxState = .inFrame ∧ d.rxBuf ≠ []) →
      (∃ e, Deframer.run p d 0 f = (⟨.inFrame, []⟩, [(0, e)]) ∧ e ≠ .frameTooLong) ∧
      ∀ y g, encodeFrame p y = .ok g →
        ∃ e, Deframer.run p d 0 (f ++ g) = (.fresh, [(0, e), (f.length + g.length - 1, .frame y)]))

/-- R72, R124: a step leaves a delivered frame on the event port only if it took the closing FLAG of a frame whose CRC, over exactly
the delivered bytes, matched. -/
def Obligations.DeliveredFramesHaveMatchingCrc : Prop :=
  ∀ (s t : State) (data : Bytes), step s = .next t → t.rxEvent = some (.frame data) →
    s.inputs.head? = some (.linkByte 0x7E) ∧ s.rx.rxState = .inFrame ∧ t.rx = ⟨.hunt, []⟩ ∧
      ∃ c0 c1, s.rx.rxBuf = data ++ [c0, c1] ∧ crc16 s.params.crc data = crcOfBytes s.params [c0, c1]

/-! ### Commands sent -/

/-- R180 with R136, for each of ECHO, READ, WRITE, SETCLR, READ_RESP and ACK as the host sends it: a command Validate refuses is
answered with its code and nothing is sent; an accepted one is queued as one frame (in every admissible build it fits, R189);
while `tx_busy` it is refused (the spec's decision D25). An ACK whose `err` is reserved is not sent at all (R98, U3; what is
reserved under another numbering than the default is log 22). -/
def Obligations.CommandsAreSerializedAndQueued : Prop :=
  ∀ (c : Command) (s : State),
    (∀ e, validate s.params c = some e →
      exec c.transmitted s = .next { s with result := some (.callError e.code) }) ∧
    (validate s.params c = none → sendable s.params c = true → s.txQueue = [] →
      s.params.admissible ∨ (layout s.params c).length ≤ s.params.maxCmdLen →
      exec c.transmitted s =
        .next { s with txQueue := frameOf s.params (layout s.params c), result := some .accepted }) ∧
    (validate s.params c = none → sendable s.params c = true → s.txQueue ≠ [] →
      exec c.transmitted s = .refused .txBusy) ∧
    (sendable s.params c = false → exec c.transmitted s = .refused .reservedErr)

/-- R181 with the payloads of R182 to R187: header and fields in order, each in its width. -/
def Obligations.LayoutOfEachVariant : Prop :=
  ∀ (p : Params) (a : U32) (w : Byte) (n : U16) (d m v : Bytes) (q e : Byte),
    let le := toField p.fieldEndian
    layout p (.echo d) = 0x01 :: le 2 d.length ++ d ∧
    layout p (.read a w n) = 0x02 :: le 2 7 ++ (le 4 a.toNat ++ w :: le 2 n.toNat) ∧
    layout p (.write a w n v) = 0x03 :: le 2 (7 + v.length) ++ (le 4 a.toNat ++ w :: le 2 n.toNat ++ v) ∧
    layout p (.setclr a w m v) = 0x04 :: le 2 (5 + m.length + v.length) ++ (le 4 a.toNat ++ w :: m ++ v) ∧
    layout p (.readResp a w n v) = 0x05 :: le 2 (7 + v.length) ++ (le 4 a.toNat ++ w :: le 2 n.toNat ++ v) ∧
    layout p (.ack q e) = 0x06 :: le 2 2 ++ [q, e]

/-- R286 for ECHO, READ, WRITE and SETCLR as session requests (the timer starts with the request: the model's choice, log 11): an
error returns to the caller and the session stays `Idle`; an accepted request is queued and the session awaits its response;
it is refused while `tx_busy` (R136, the spec's decision D25) and while a request is outstanding (the spec says that this
cannot happen; a refusal is the model's reading, log 19). -/
def Obligations.RequestsOpenAnExchange : Prop :=
  ∀ (c : Command) (i : Instr) (s : State), c.requested = some i →
    (∀ e, s.session = .idle → validate s.params c = some e →
      exec i s = .next { s with result := some (.callError e.code), flash := [] }) ∧
    (s.session = .idle → validate s.params c = none → s.txQueue = [] → s.params.admissible →
      exec i s = .next { s with
        txQueue := frameOf s.params (layout s.params c)
        session := .awaiting c s.params.timeoutTicks
        result := none }) ∧
    (s.session = .idle → validate s.params c = none → s.txQueue ≠ [] → exec i s = .refused .txBusy) ∧
    (s.session ≠ .idle → exec i s = .refused .callerBlocked)

/-! ### Commands received by the responder -/

/-- R231, R238: a received ECHO that Validate accepts is answered with ACK OK and does nothing else (an ACK and
no mirrored payload: the spec's decision D22). -/
def Obligations.EchoIsAcknowledged : Prop :=
  ∀ (d : Bytes) (s : State), s.params.admissible → s.txQueue = [] → 1 ≤ d.length → d.length ≤ s.params.echoMax →
    exec (.echo (.receive .serve) d) s = .next { s with
      txQueue := frameOf s.params (layout s.params (.ack 0x01 s.params.errCode.ok))
      result := some .accepted }

/-- R232, R238: a received READ that Validate accepts and the target performs is answered with READ_RESP, the READ's own fields
and one value for each element, read at `addr + i × width` (the spec's decision D23); nothing else changes. The model's
choices in it: the target's bytes are little-endian and a read changes no register in its own step (log 8), all elements are
read at one moment, in one step (log 10), and an element at or above 2^32 is read where an open constant says (log 14). -/
def Obligations.ReadIsAnsweredWithElements : Prop :=
  ∀ (a : U32) (w : Byte) (n : U16) (s : State), s.params.admissible → s.txQueue = [] →
    validate s.params (.read a w n) = none → s.targetAnswer = none →
    ∃ v : Bytes, v.length = n.toNat * w.toNat ∧
      (∀ k, k < n.toNat → ofField s.params.fieldEndian ((v.drop (k * w.toNat)).take w.toNat)
        = memRead s.mem (a.toNat + k * w.toNat) w.toNat) ∧
      exec (.read (.receive .serve) a w n) s = .next { s with
        txQueue := frameOf s.params (layout s.params (.readResp a w n v))
        result := some .accepted }

/-- R233, R238: a received WRITE that Validate accepts and the target performs puts element `i` at `addr + i × width`, leaves every
other byte of the register space as it was, and is answered with ACK OK (element addresses: the spec's decision D23). Its range
lies within 2^32 (beyond it the spec says nothing, N10). The model's choices in it: the target's bytes are little-endian
(log 8), and all elements land in one step, with no change of the target's own between them (log 10). -/
def Obligations.WriteStoresElements : Prop :=
  ∀ (a : U32) (w : Byte) (n : U16) (v : Bytes) (s : State), s.params.admissible → s.txQueue = [] → Memory.wf s.mem →
    validate s.params (.write a w n v) = none → s.targetAnswer = none → a.toNat + n.toNat * w.toNat ≤ 2 ^ 32 →
    ∃ m : Memory, Memory.wf m ∧
      (∀ k, k < n.toNat → memRead m (a.toNat + k * w.toNat) w.toNat
        = ofField s.params.fieldEndian ((v.drop (k * w.toNat)).take w.toNat)) ∧
      (∀ x, ¬ (a.toNat ≤ x ∧ x < a.toNat + n.toNat * w.toNat) → Memory.read m x = Memory.read s.mem x) ∧
      exec (.write (.receive .serve) a w n v) s = .next { s with
        mem := m
        txQueue := frameOf s.params (layout s.params (.ack 0x03 s.params.errCode.ok))
        result := some .accepted }

/-- R234, R71: a received SETCLR that Validate accepts and the target performs gives the register, bit by bit, the bit of `val`
where `mask` has a 1 and its old bit where it has a 0, leaves every other byte as it was, and is answered with ACK OK. -/
def Obligations.SetclrModifiesMaskedBits : Prop :=
  ∀ (a : U32) (w : Byte) (mask val : Bytes) (s : State), s.params.admissible → s.txQueue = [] → Memory.wf s.mem →
    validate s.params (.setclr a w mask val) = none → s.targetAnswer = none →
    ∃ m : Memory, Memory.wf m ∧
      (∀ j, j < 8 * w.toNat → (memRead m a.toNat w.toNat).testBit j =
        if (ofField s.params.fieldEndian mask).testBit j then (ofField s.params.fieldEndian val).testBit j
        else (memRead s.mem a.toNat w.toNat).testBit j) ∧
      (∀ x, ¬ (a.toNat ≤ x ∧ x < a.toNat + w.toNat) → Memory.read m x = Memory.read s.mem x) ∧
      exec (.setclr (.receive .serve) a w mask val) s = .next { s with
        mem := m
        txQueue := frameOf s.params (layout s.params (.ack 0x04 s.params.errCode.ok))
        result := some .accepted }

/-- R238: a received request that fails Validate is NACKed with Validate's code and the target is not touched; so is one the
target refuses, with the target's code (ECHO needs no target). The sequence is the spec's decision D29; that a failed access
changes nothing in its step is the model's choice (log 9). -/
def Obligations.FailedRequestsAreNacked : Prop :=
  ∀ (c : Command) (s : State), s.params.admissible → s.txQueue = [] → isRequest c = true →
    (∀ e, validate s.params c = some e → exec (c.received .serve) s = .next { s with
      txQueue := frameOf s.params (layout s.params (.ack c.code (s.params.errCode.byte e.code)))
      result := some .accepted }) ∧
    (∀ e, validate s.params c = none → s.targetAnswer = some e → (∀ d, c ≠ .echo d) →
      exec (c.received .serve) s = .next { s with
        txQueue := frameOf s.params (layout s.params (.ack c.code (s.params.errCode.byte e.code)))
        result := some .accepted })

/-- R230, R238: READ_RESP, ACK and a reserved `cmd` received as requests are NACKed with BAD_CMD, `req` the received `cmd` byte
(the spec's decisions D29, D21). -/
def Obligations.WrongWayCommandsAreNacked : Prop :=
  ∀ (a : U32) (w : Byte) (n : U16) (v : Bytes) (q e cmd : Byte) (s : State), s.params.admissible → s.txQueue = [] →
    let nack : Byte → StepOutcome := fun req => .next { s with
      txQueue := frameOf s.params (layout s.params (.ack req s.params.errCode.badCmd))
      result := some .accepted }
    exec (.readResp (.receive .serve) a w n v) s = nack 0x05 ∧
    exec (.ack (.receive .serve) q e) s = nack 0x06 ∧
    exec (.reservedCmd .serve cmd v) s = nack cmd

/-- R236, R238: a received frame that does not deserialise is NACKed with the mapped code, `req` its first byte, 0x00 for an
empty command (the spec's decision D21); the session drops it instead (R288). CrcMismatch, Malformed and FrameTooLong get no
response at all, and the session drops them too (R236, R238, R288), whatever the queue holds. A responder that has to answer
while `tx_busy` is refused (R136, the spec's decision D25). -/
def Obligations.UndeserializableFramesAreNacked : Prop :=
  ∀ (s : State) (rest : List Input),
    (∀ (x : Bytes) (e : DesError), s.rxEvent = some (.frame x) → deserialize s.params x = .error e → e ≠ .badCmd →
      (s.inputs = .serve :: rest → s.txQueue = [] → s.params.admissible → step s = .next { s with
        inputs := rest
        rxEvent := none
        txQueue := frameOf s.params (layout s.params (.ack (x.headD 0x00) (s.params.errCode.byte e.code)))
        result := some .accepted }) ∧
      (s.inputs = .serve :: rest → s.txQueue ≠ [] → step s = .refused .txBusy) ∧
      (s.inputs = .settle :: rest → step s = .next { s with inputs := rest, rxEvent := none })) ∧
    (s.rxEvent = some .crcMismatch ∨ s.rxEvent = some .malformed ∨ s.rxEvent = some .frameTooLong →
      s.inputs = .serve :: rest ∨ s.inputs = .settle :: rest →
      step s = .next { s with inputs := rest, rxEvent := none })

/-- R136 at the responder: while `tx_busy` no received command is answered (the spec's decision D25), and none has any effect (a
served command is one step: the model's choice, log 10). -/
def Obligations.BusyResponderIsRefused : Prop :=
  ∀ (c : Command) (cmd : Byte) (pl : Bytes) (s : State), s.txQueue ≠ [] →
    exec (c.received .serve) s = .refused .txBusy ∧ exec (.reservedCmd .serve cmd pl) s = .refused .txBusy

/-! ### Commands received by the session -/

/-- R288 for ACK: an ACK that names the outstanding request ends the exchange, as a success, a failure with its `err`, or, for a
READ, a failure with no values (the spec's decision D29); FlashUpdate goes on only after a success; an ACK that names another
request changes nothing, and so does one taken with no request outstanding (the model's reading, log 16). -/
def Obligations.SessionMatchesAckByReq : Prop :=
  ∀ (s : State) (q e : Byte),
    (s.session = .idle → exec (.ack (.receive .settle) q e) s = .next s) ∧
    ∀ (r : Command) (k : Nat), s.session = .awaiting r k →
      (q ≠ r.code → exec (.ack (.receive .settle) q e) s = .next s) ∧
      (e ≠ s.params.errCode.ok → exec (.ack (.receive .settle) r.code e) s =
        .next { s with session := .idle, result := some (.failed e), flash := [] }) ∧
      (r.code = readCode → exec (.ack (.receive .settle) r.code s.params.errCode.ok) s =
        .next { s with session := .idle, result := some .noValues, flash := [] }) ∧
      (r.code ≠ readCode → exec (.ack (.receive .settle) r.code s.params.errCode.ok) s =
        .next { s with session := .idle, result := if s.flash = [] then some .success else none })

/-- R288, R241 for READ_RESP: one with the outstanding READ's three fields ends the exchange with its values as integers;
any other changes nothing (the spec's decision D29), and so does one taken with no request outstanding (the model's reading,
log 16). -/
def Obligations.SessionMatchesReadRespByFields : Prop :=
  ∀ (s : State) (a : U32) (w : Byte) (n : U16) (v : Bytes),
    (s.session = .idle → exec (.readResp (.receive .settle) a w n v) s = .next s) ∧
    ∀ (r : Command) (k : Nat), s.session = .awaiting r k →
      (r = .read a w n → ∃ xs : List Nat, xs.length = n.toNat ∧
        (∀ j, j < n.toNat → xs[j]? = some (ofField s.params.fieldEndian ((v.drop (j * w.toNat)).take w.toNat))) ∧
        exec (.readResp (.receive .settle) a w n v) s =
          .next { s with session := .idle, result := some (.values xs), flash := [] }) ∧
      (r ≠ .read a w n → exec (.readResp (.receive .settle) a w n v) s = .next s)

/-- R288: a request variant or a reserved `cmd` is no response: the session drops it (the spec's decision D29). -/
def Obligations.SessionDropsRequests : Prop :=
  ∀ (c : Command) (cmd : Byte) (pl : Bytes) (s : State),
    (isRequest c = true → exec (c.received .settle) s = .next s) ∧
    exec (.reservedCmd .settle cmd pl) s = .next s

/-- R287 in ticks of the host's clock, the model's choice (log 11): the last tick ends the exchange with Timeout and no retry, an
earlier one is counted. -/
def Obligations.TimerExpiryEndsTheExchange : Prop :=
  ∀ (s : State) (r : Command) (k : Nat) (rest : List Input), s.inputs = .tick :: rest → s.session = .awaiting r k →
    (k ≤ 1 → step s = .next { s with
      inputs := rest
      rxEvent := none
      session := .idle
      result := some .timeout
      flash := [] }) ∧
    (1 < k → step s = .next { s with inputs := rest, rxEvent := none, session := .awaiting r (k - 1) })

/-- R287, R288 and reset: only these end an exchange: the timer's last tick, a matching response, reset. -/
def Obligations.OnlyTheseEventsEndAnExchange : Prop :=
  ∀ (s t : State) (r : Command) (k : Nat), step s = .next t → s.session = .awaiting r k → t.session = .idle →
    s.inputs.head? = some .reset ∨
    (s.inputs.head? = some .tick ∧ k ≤ 1 ∧ t.result = some .timeout ∧ t.flash = []) ∨
    (s.inputs.head? = some .settle ∧ ∃ x c, s.rxEvent = some (.frame x) ∧ deserialize s.params x = .ok c ∧
      ((∃ e, c = .ack r.code e) ∨ (∃ a w n v, c = .readResp a w n v ∧ r = .read a w n)))

/-! ### FlashUpdate -/

/-- R244: with its preconditions met FlashUpdate queues `length / 1024` Writes of 256 words, chunk `k` at
`FLASH_BASE + offset + 1024 k` with the source bytes verbatim. The model's choices in it: a failed precondition is refused
(log 19), the address is taken modulo 2^32 (log 18), and a source buffer shorter than `length` goes on with free bytes, so that
every chunk is full (log 23). -/
def Obligations.FlashUpdateChunks : Prop :=
  ∀ (s : State) (off len : Nat) (src : Bytes) (rest : List Input), s.inputs = .flashUpdate off len src :: rest →
    s.session = .idle → s.flash = [] →
    (¬ (off + len ≤ 2 ^ 24 ∧ len % 0x10000 = 0) → step s = .refused .flashPrecondition) ∧
    (off + len ≤ 2 ^ 24 → len % 0x10000 = 0 → 0 < len → ∃ (cs : List Command) (whole : Bytes), cs.length = len / 1024 ∧
      len ≤ whole.length ∧ whole.take src.length = src ∧ (len ≤ src.length → whole = src) ∧
      (∀ k, k < len / 1024 → cs[k]? = some (.write (Config.flashBase + BitVec.ofNat 32 (off + 1024 * k)) 4 256
        ((whole.drop (1024 * k)).take 1024))) ∧
      step s = .next { s with inputs := rest, rxEvent := none, flash := cs, result := none }) ∧
    (off ≤ 2 ^ 24 → len = 0 → step s = .next { s with inputs := rest, rxEvent := none, result := some .success })

/-- R244: FlashUpdate's next Write is an ordinary session request with the chunk removed from the list. -/
def Obligations.FlashUpdateSendsNextChunk : Prop :=
  ∀ (s : State) (a : U32) (w : Byte) (n : U16) (v : Bytes) (cs : List Command) (rest : List Input),
    s.inputs = .flashNext :: rest → s.flash = .write a w n v :: cs →
    step s = exec (.write .request a w n v) { s with inputs := rest, rxEvent := none, flash := cs }

/-! ### The machine -/

/-- R30: the values after reset (that there is a reset is the spec's decision D2). R30 leaves the parameters unchanged; that the
reset state carries the defaults of R8 is the model's choice (log 1). -/
def Obligations.ResetValues : Prop :=
  State.reset.rx.rxState = .hunt ∧ State.reset.rx.rxLen = 0 ∧ State.reset.txQueue = [] ∧
  State.reset.txBusy = false ∧ State.reset.rxEvent = none ∧ State.reset.params = Params.default

/-- R300, R31: the reset input installs the values of R30 from any state and raises no event, RxFlush resets the receive state
alone (the spec's decisions D2, D32). -/
def Obligations.ResetAndFlushInputs : Prop :=
  ∀ (s : State) (rest : List Input),
    (s.inputs = .reset :: rest → ∃ t, step s = .next t ∧ t.rx = ⟨.hunt, []⟩ ∧ t.txQueue = [] ∧ t.rxEvent = none ∧
      t.params = s.params) ∧
    (s.inputs = .rxFlush :: rest → step s = .next { s with inputs := rest, rxEvent := none, rx := ⟨.hunt, []⟩ })

/-- The invariant of the machine holds after reset. -/
def Obligations.ResetMeetsInvariant : Prop := State.reset.Inv

/-- Every step keeps the invariant: the receive state (R25), the bound on `tx_queue` (R26), the canonical register space, a
session request that can be outstanding, FlashUpdate's Writes. -/
def Obligations.EveryStepKeepsInvariant : Prop :=
  ∀ s t : State, s.Inv → step s = .next t → t.Inv

/-- R20: no operation changes the build's parameters. -/
def Obligations.ParametersNeverChange : Prop :=
  ∀ s t : State, step s = .next t → t.params = s.params

/-- R151: a whole link symbol in front of the inputs is decoded and run as that instruction, its bytes taken; an escape byte
whose pair is not complete (R159), or that stands before a FLAG (R160), is taken alone. Running a pair as one step is the
model's reading (log 5). -/
def Obligations.StepRunsLinkSymbol : Prop :=
  (∀ (s : State) (i : Instr) (rest : List Input), i.port = .link → i.wellFormed s.params = true →
    s.inputs = (encode s.params i).map Input.linkByte ++ rest →
    step s = exec i { s with inputs := rest, rxEvent := none }) ∧
  (∀ (s : State) (rest : List Input), s.inputs = .linkByte 0x7D :: rest →
    (∀ b, rest.head? = some (.linkByte b) → b = 0x7E) →
    step s = .next (({ s with inputs := rest, rxEvent := none } : State).takeByte 0x7D))

/-- A command the host hands over, an operation it calls, and a received command it takes from the event port are run as the
instructions they are. An operation called between two Writes of FlashUpdate is refused, as its caller is blocked (the model's
reading, log 19). -/
def Obligations.StepRunsCommands : Prop :=
  ∀ (s : State) (rest : List Input),
    (∀ c, s.inputs = .call c :: rest → step s = exec c.transmitted { s with inputs := rest, rxEvent := none }) ∧
    (∀ x i, s.rxEvent = some (.frame x) → decode s.params (.frame .serve) x = .ok (i, []) →
      s.inputs = .serve :: rest → step s = exec i { s with inputs := rest, rxEvent := none }) ∧
    (∀ x i, s.rxEvent = some (.frame x) → decode s.params (.frame .settle) x = .ok (i, []) →
      s.inputs = .settle :: rest → step s = exec i { s with inputs := rest, rxEvent := none }) ∧
    (∀ a w n d m v,
      let called : Instr → StepOutcome := fun i =>
        if s.flash = [] then exec i { s with inputs := rest, rxEvent := none } else .refused .callerBlocked
      (s.inputs = .echoOp d :: rest → step s = called (.echo .request d)) ∧
      (s.inputs = .readOp a w n :: rest → step s = called (.read .request a w n)) ∧
      (s.inputs = .writeOp a w n v :: rest → step s = called (.write .request a w n v)) ∧
      (s.inputs = .setclrOp a w m v :: rest → step s = called (.setclr .request a w m v)))

/-- R303: where a run has ended at this end of the link, a step changes nothing, whatever partial frame the deframer holds; an
event that the last step raised is gone (R306). -/
def Obligations.QuiescentMachineRests : Prop :=
  ∀ s : State, s.quiescent = true →
    step s = .next { s with rxEvent := none } ∧ (s.rxEvent = none → step s = .next s)

/-- An instruction placed by `State.present` is the very one the next step runs. Placing an instruction is the model's own way of
presenting it at its port (log 4); the ports are those of R32. -/
def Obligations.PresentedInstructionRuns : Prop :=
  ∀ (s : State) (i : Instr), i.wellFormed s.params = true → ∃ t : State,
    t.params = s.params ∧ t.rx = s.rx ∧ t.txQueue = s.txQueue ∧ t.mem = s.mem ∧ t.session = s.session ∧
    t.inputs = s.inputs ∧ step (s.present i) = exec i t

/-- R13: a step stops only on caller misuse, and the refusal says which. -/
def Obligations.OnlyMisuseStopsTheMachine : Prop :=
  ∀ (s : State), (∃ t, step s = .next t) ∨ ∃ r, step s = .refused r ∧ s.Misuse r

/-- R268: the receive side reads nothing of the transmit side and the transmit side nothing of the receive side, so a link symbol
and a TxEmit give the same state in either order. -/
def Obligations.RxAndTxAreIndependent : Prop :=
  (∀ (i : Instr) (s t s' : State), i.port = .link → s.rx = t.rx → s.params = t.params → exec i s = .next s' →
    ∃ t', exec i t = .next t' ∧ t'.rx = s'.rx ∧ t'.rxEvent = s'.rxEvent) ∧
  (∀ (i : Instr) (s s' : State), i.port = .link → exec i s = .next s' → exec i s.txEmit = .next s'.txEmit)

/-- U8, R62: the slave's register space changes only by its own changes and by a WRITE or SETCLR the responder carries out. That a
served READ changes no register in its own step (log 8), and that a failed access changes none in its own (log 9), are the
model's choices: the spec leaves both to the target. -/
def Obligations.OnlyWritesAndSetclrsChangeRegisters : Prop :=
  ∀ s t : State, step s = .next t → t.mem ≠ s.mem →
    (∃ x b, s.inputs.head? = some (.targetChange x b)) ∨
    (∃ u, (∃ a w n v, fetch s = .instr (.write (.receive .serve) a w n v) u) ∨
      ∃ a w m v, fetch s = .instr (.setclr (.receive .serve) a w m v) u)

/-! ### Events and reserved codes -/

/-- R306, R272: the event port shows an event after a step only where that step took a link byte, and the deframer is then empty
in HUNT (R270); after any other step it shows none. R20: but for a host that takes it, no step depends on the event the step
before raised. That the host takes an event as the transaction directly after the one that raised it, so that the port stands
in State until then, is the model's reading (log 3). -/
def Obligations.EventsAreNotLatched : Prop :=
  (∀ (s t : State) (e : RxEvent), step s = .next t → t.rxEvent = some e →
    (∃ b, s.inputs.head? = some (.linkByte b)) ∧ t.rx = ⟨.hunt, []⟩) ∧
  (∀ (s : State) (e : Option RxEvent), s.inputs.head? ≠ some .serve → s.inputs.head? ≠ some .settle →
    step { s with rxEvent := e } = step s)

/-- R98, U3: which commands the host may hand over for sending (the predicate `sendable`; that the others are refused is
CommandsAreSerializedAndQueued): with the default numbering of the error codes every command but an ACK with an `err` from 0x0B
to 0xFF. That under any numbering exactly the values of no error code are reserved is the model's reading (log 22); raw bytes
given to TxStart are not looked into (log 22). -/
def Obligations.SendableIsAllButReservedErr : Prop :=
  (∀ (req err : Byte), sendable Params.default (.ack req err) = false ↔ 0x0B ≤ err.toNat) ∧
  (∀ (p : Params) (req : Byte) (e : ErrorCode), sendable p (.ack req (p.errCode.byte e)) = true) ∧
  (∀ (p : Params) (c : Command), sendable p c = false →
    ∃ req err, c = .ack req err ∧ ∀ e : ErrorCode, p.errCode.byte e ≠ err)
end

