-- ==== Sys2Proof/Laws/State.lean ====
section
/-! SUPPORT. One lemma for each field under each update of the state, so that no proof unfolds a record update. -/

namespace Sys2Proof.Machine

variable (s : State)

/-! ### setRx -/

@[simp] theorem State.setRx_params (r : Deframer × Option RxEvent) : (s.setRx r).params = s.params := rfl
@[simp] theorem State.setRx_rx (r : Deframer × Option RxEvent) : (s.setRx r).rx = r.1 := rfl
@[simp] theorem State.setRx_rxEvent (r : Deframer × Option RxEvent) : (s.setRx r).rxEvent = r.2 := rfl
@[simp] theorem State.setRx_txQueue (r : Deframer × Option RxEvent) : (s.setRx r).txQueue = s.txQueue := rfl
@[simp] theorem State.setRx_linkTx (r : Deframer × Option RxEvent) : (s.setRx r).linkTx = s.linkTx := rfl
@[simp] theorem State.setRx_inputs (r : Deframer × Option RxEvent) : (s.setRx r).inputs = s.inputs := rfl
@[simp] theorem State.setRx_result (r : Deframer × Option RxEvent) : (s.setRx r).result = s.result := rfl
@[simp] theorem State.setRx_session (r : Deframer × Option RxEvent) : (s.setRx r).session = s.session := rfl
@[simp] theorem State.setRx_flash (r : Deframer × Option RxEvent) : (s.setRx r).flash = s.flash := rfl
@[simp] theorem State.setRx_mem (r : Deframer × Option RxEvent) : (s.setRx r).mem = s.mem := rfl
@[simp] theorem State.setRx_targetAnswer (r : Deframer × Option RxEvent) : (s.setRx r).targetAnswer = s.targetAnswer := rfl

/-! ### load -/

@[simp] theorem State.load_params (f : Bytes) : (s.load f).params = s.params := rfl
@[simp] theorem State.load_rx (f : Bytes) : (s.load f).rx = s.rx := rfl
@[simp] theorem State.load_rxEvent (f : Bytes) : (s.load f).rxEvent = s.rxEvent := rfl
@[simp] theorem State.load_txQueue (f : Bytes) : (s.load f).txQueue = f := rfl
@[simp] theorem State.load_linkTx (f : Bytes) : (s.load f).linkTx = s.linkTx := rfl
@[simp] theorem State.load_inputs (f : Bytes) : (s.load f).inputs = s.inputs := rfl
@[simp] theorem State.load_result (f : Bytes) : (s.load f).result = s.result := rfl
@[simp] theorem State.load_session (f : Bytes) : (s.load f).session = s.session := rfl
@[simp] theorem State.load_flash (f : Bytes) : (s.load f).flash = s.flash := rfl
@[simp] theorem State.load_mem (f : Bytes) : (s.load f).mem = s.mem := rfl
@[simp] theorem State.load_targetAnswer (f : Bytes) : (s.load f).targetAnswer = s.targetAnswer := rfl

/-! ### advance -/

@[simp] theorem State.advance_params (n : Nat) : (s.advance n).params = s.params := rfl
@[simp] theorem State.advance_rx (n : Nat) : (s.advance n).rx = s.rx := rfl
@[simp] theorem State.advance_rxEvent (n : Nat) : (s.advance n).rxEvent = none := rfl
@[simp] theorem State.advance_txQueue (n : Nat) : (s.advance n).txQueue = s.txQueue := rfl
@[simp] theorem State.advance_linkTx (n : Nat) : (s.advance n).linkTx = s.linkTx := rfl
@[simp] theorem State.advance_inputs (n : Nat) : (s.advance n).inputs = s.inputs.drop n := rfl
@[simp] theorem State.advance_result (n : Nat) : (s.advance n).result = s.result := rfl
@[simp] theorem State.advance_session (n : Nat) : (s.advance n).session = s.session := rfl
@[simp] theorem State.advance_flash (n : Nat) : (s.advance n).flash = s.flash := rfl
@[simp] theorem State.advance_mem (n : Nat) : (s.advance n).mem = s.mem := rfl
@[simp] theorem State.advance_targetAnswer (n : Nat) : (s.advance n).targetAnswer = s.targetAnswer := rfl

/-! ### answer -/

@[simp] theorem State.answer_params (r : Result) : (s.answer r).params = s.params := rfl
@[simp] theorem State.answer_rx (r : Result) : (s.answer r).rx = s.rx := rfl
@[simp] theorem State.answer_rxEvent (r : Result) : (s.answer r).rxEvent = s.rxEvent := rfl
@[simp] theorem State.answer_txQueue (r : Result) : (s.answer r).txQueue = s.txQueue := rfl
@[simp] theorem State.answer_linkTx (r : Result) : (s.answer r).linkTx = s.linkTx := rfl
@[simp] theorem State.answer_inputs (r : Result) : (s.answer r).inputs = s.inputs := rfl
@[simp] theorem State.answer_result (r : Result) : (s.answer r).result = some r := rfl
@[simp] theorem State.answer_session (r : Result) : (s.answer r).session = s.session := rfl
@[simp] theorem State.answer_flash (r : Result) : (s.answer r).flash = s.flash := rfl
@[simp] theorem State.answer_mem (r : Result) : (s.answer r).mem = s.mem := rfl
@[simp] theorem State.answer_targetAnswer (r : Result) : (s.answer r).targetAnswer = s.targetAnswer := rfl

/-! ### await -/

@[simp] theorem State.await_params (c : Command) : (s.await c).params = s.params := rfl
@[simp] theorem State.await_rx (c : Command) : (s.await c).rx = s.rx := rfl
@[simp] theorem State.await_rxEvent (c : Command) : (s.await c).rxEvent = s.rxEvent := rfl
@[simp] theorem State.await_txQueue (c : Command) : (s.await c).txQueue = s.txQueue := rfl
@[simp] theorem State.await_linkTx (c : Command) : (s.await c).linkTx = s.linkTx := rfl
@[simp] theorem State.await_inputs (c : Command) : (s.await c).inputs = s.inputs := rfl
@[simp] theorem State.await_result (c : Command) : (s.await c).result = none := rfl
@[simp] theorem State.await_session (c : Command) : (s.await c).session = .awaiting c s.params.timeoutTicks := rfl
@[simp] theorem State.await_flash (c : Command) : (s.await c).flash = s.flash := rfl
@[simp] theorem State.await_mem (c : Command) : (s.await c).mem = s.mem := rfl
@[simp] theorem State.await_targetAnswer (c : Command) : (s.await c).targetAnswer = s.targetAnswer := rfl

/-! ### setMem -/

@[simp] theorem State.setMem_params (m : Memory) : (s.setMem m).params = s.params := rfl
@[simp] theorem State.setMem_rx (m : Memory) : (s.setMem m).rx = s.rx := rfl
@[simp] theorem State.setMem_rxEvent (m : Memory) : (s.setMem m).rxEvent = s.rxEvent := rfl
@[simp] theorem State.setMem_txQueue (m : Memory) : (s.setMem m).txQueue = s.txQueue := rfl
@[simp] theorem State.setMem_linkTx (m : Memory) : (s.setMem m).linkTx = s.linkTx := rfl
@[simp] theorem State.setMem_inputs (m : Memory) : (s.setMem m).inputs = s.inputs := rfl
@[simp] theorem State.setMem_result (m : Memory) : (s.setMem m).result = s.result := rfl
@[simp] theorem State.setMem_session (m : Memory) : (s.setMem m).session = s.session := rfl
@[simp] theorem State.setMem_flash (m : Memory) : (s.setMem m).flash = s.flash := rfl
@[simp] theorem State.setMem_mem (m : Memory) : (s.setMem m).mem = m := rfl
@[simp] theorem State.setMem_targetAnswer (m : Memory) : (s.setMem m).targetAnswer = s.targetAnswer := rfl

/-! ### rxFlush -/

@[simp] theorem State.rxFlush_params : (s.rxFlush).params = s.params := rfl
@[simp] theorem State.rxFlush_rx : (s.rxFlush).rx = .fresh := rfl
@[simp] theorem State.rxFlush_rxEvent : (s.rxFlush).rxEvent = s.rxEvent := rfl
@[simp] theorem State.rxFlush_txQueue : (s.rxFlush).txQueue = s.txQueue := rfl
@[simp] theorem State.rxFlush_linkTx : (s.rxFlush).linkTx = s.linkTx := rfl
@[simp] theorem State.rxFlush_inputs : (s.rxFlush).inputs = s.inputs := rfl
@[simp] theorem State.rxFlush_result : (s.rxFlush).result = s.result := rfl
@[simp] theorem State.rxFlush_session : (s.rxFlush).session = s.session := rfl
@[simp] theorem State.rxFlush_flash : (s.rxFlush).flash = s.flash := rfl
@[simp] theorem State.rxFlush_mem : (s.rxFlush).mem = s.mem := rfl
@[simp] theorem State.rxFlush_targetAnswer : (s.rxFlush).targetAnswer = s.targetAnswer := rfl

/-! ### resetBlock -/

@[simp] theorem State.resetBlock_params : (s.resetBlock).params = s.params := rfl
@[simp] theorem State.resetBlock_rx : (s.resetBlock).rx = .fresh := rfl
@[simp] theorem State.resetBlock_rxEvent : (s.resetBlock).rxEvent = none := rfl
@[simp] theorem State.resetBlock_txQueue : (s.resetBlock).txQueue = [] := rfl
@[simp] theorem State.resetBlock_linkTx : (s.resetBlock).linkTx = [] := rfl
@[simp] theorem State.resetBlock_inputs : (s.resetBlock).inputs = s.inputs := rfl
@[simp] theorem State.resetBlock_result : (s.resetBlock).result = none := rfl
@[simp] theorem State.resetBlock_session : (s.resetBlock).session = .idle := rfl
@[simp] theorem State.resetBlock_flash : (s.resetBlock).flash = [] := rfl
@[simp] theorem State.resetBlock_mem : (s.resetBlock).mem = s.mem := rfl
@[simp] theorem State.resetBlock_targetAnswer : (s.resetBlock).targetAnswer = s.targetAnswer := rfl

/-! ### takeByte -/

@[simp] theorem State.takeByte_params (b : Byte) : (s.takeByte b).params = s.params := rfl
@[simp] theorem State.takeByte_rx (b : Byte) : (s.takeByte b).rx = (s.rx.step s.params b).1 := rfl
@[simp] theorem State.takeByte_rxEvent (b : Byte) : (s.takeByte b).rxEvent = (s.rx.step s.params b).2 := rfl
@[simp] theorem State.takeByte_txQueue (b : Byte) : (s.takeByte b).txQueue = s.txQueue := rfl
@[simp] theorem State.takeByte_linkTx (b : Byte) : (s.takeByte b).linkTx = s.linkTx := rfl
@[simp] theorem State.takeByte_inputs (b : Byte) : (s.takeByte b).inputs = s.inputs := rfl
@[simp] theorem State.takeByte_result (b : Byte) : (s.takeByte b).result = s.result := rfl
@[simp] theorem State.takeByte_session (b : Byte) : (s.takeByte b).session = s.session := rfl
@[simp] theorem State.takeByte_flash (b : Byte) : (s.takeByte b).flash = s.flash := rfl
@[simp] theorem State.takeByte_mem (b : Byte) : (s.takeByte b).mem = s.mem := rfl
@[simp] theorem State.takeByte_targetAnswer (b : Byte) : (s.takeByte b).targetAnswer = s.targetAnswer := rfl

/-! ### takePair -/

@[simp] theorem State.takePair_params (b c : Byte) : (s.takePair b c).params = s.params := rfl
@[simp] theorem State.takePair_txQueue (b c : Byte) : (s.takePair b c).txQueue = s.txQueue := rfl
@[simp] theorem State.takePair_linkTx (b c : Byte) : (s.takePair b c).linkTx = s.linkTx := rfl
@[simp] theorem State.takePair_inputs (b c : Byte) : (s.takePair b c).inputs = s.inputs := rfl
@[simp] theorem State.takePair_result (b c : Byte) : (s.takePair b c).result = s.result := rfl
@[simp] theorem State.takePair_session (b c : Byte) : (s.takePair b c).session = s.session := rfl
@[simp] theorem State.takePair_flash (b c : Byte) : (s.takePair b c).flash = s.flash := rfl
@[simp] theorem State.takePair_mem (b c : Byte) : (s.takePair b c).mem = s.mem := rfl
@[simp] theorem State.takePair_targetAnswer (b c : Byte) : (s.takePair b c).targetAnswer = s.targetAnswer := rfl
@[simp] theorem State.takePair_rx (b c : Byte) :
    (s.takePair b c).rx = ((s.rx.step s.params b).1.step s.params c).1 := rfl
@[simp] theorem State.takePair_rxEvent (b c : Byte) :
    (s.takePair b c).rxEvent = (((s.rx.step s.params b).1.step s.params c).2 <|> (s.rx.step s.params b).2) := rfl

/-! ### txEmit -/

@[simp] theorem State.txEmit_params : s.txEmit.params = s.params := by
  unfold State.txEmit; split <;> rfl
@[simp] theorem State.txEmit_rx : s.txEmit.rx = s.rx := by
  unfold State.txEmit; split <;> rfl
@[simp] theorem State.txEmit_rxEvent : s.txEmit.rxEvent = s.rxEvent := by
  unfold State.txEmit; split <;> rfl
@[simp] theorem State.txEmit_inputs : s.txEmit.inputs = s.inputs := by
  unfold State.txEmit; split <;> rfl
@[simp] theorem State.txEmit_result : s.txEmit.result = s.result := by
  unfold State.txEmit; split <;> rfl
@[simp] theorem State.txEmit_session : s.txEmit.session = s.session := by
  unfold State.txEmit; split <;> rfl
@[simp] theorem State.txEmit_flash : s.txEmit.flash = s.flash := by
  unfold State.txEmit; split <;> rfl
@[simp] theorem State.txEmit_mem : s.txEmit.mem = s.mem := by
  unfold State.txEmit; split <;> rfl
@[simp] theorem State.txEmit_targetAnswer : s.txEmit.targetAnswer = s.targetAnswer := by
  unfold State.txEmit; split <;> rfl

@[simp] theorem State.txEmit_txQueue : s.txEmit.txQueue = s.txQueue.tail := by
  unfold State.txEmit; split <;> simp_all

/-- What has left and what is queued, taken together, are not changed by `TxEmit`. -/
@[simp] theorem State.txEmit_link : s.txEmit.linkTx ++ s.txEmit.txQueue = s.linkTx ++ s.txQueue := by
  unfold State.txEmit; split <;> simp_all

/-! ### finish -/

@[simp] theorem State.finish_params (r : Result) : (s.finish r).params = s.params := by
  unfold State.finish; split <;> rfl
@[simp] theorem State.finish_rx (r : Result) : (s.finish r).rx = s.rx := by
  unfold State.finish; split <;> rfl
@[simp] theorem State.finish_rxEvent (r : Result) : (s.finish r).rxEvent = s.rxEvent := by
  unfold State.finish; split <;> rfl
@[simp] theorem State.finish_txQueue (r : Result) : (s.finish r).txQueue = s.txQueue := by
  unfold State.finish; split <;> rfl
@[simp] theorem State.finish_linkTx (r : Result) : (s.finish r).linkTx = s.linkTx := by
  unfold State.finish; split <;> rfl
@[simp] theorem State.finish_inputs (r : Result) : (s.finish r).inputs = s.inputs := by
  unfold State.finish; split <;> rfl
@[simp] theorem State.finish_mem (r : Result) : (s.finish r).mem = s.mem := by
  unfold State.finish; split <;> rfl
@[simp] theorem State.finish_targetAnswer (r : Result) : (s.finish r).targetAnswer = s.targetAnswer := by
  unfold State.finish; split <;> rfl
@[simp] theorem State.finish_session (r : Result) : (s.finish r).session = .idle := by
  unfold State.finish; split <;> rfl

/-- An exchange that ends leaves FlashUpdate's Writes as they are, or drops them all (R244). -/
theorem State.finish_flash (r : Result) : (s.finish r).flash = s.flash ∨ (s.finish r).flash = [] := by
  unfold State.finish; split <;> simp

/-! ### tick -/

@[simp] theorem State.tick_params : s.tick.params = s.params := by
  unfold State.tick; split <;> try split
  all_goals simp
@[simp] theorem State.tick_rx : s.tick.rx = s.rx := by
  unfold State.tick; split <;> try split
  all_goals simp
@[simp] theorem State.tick_rxEvent : s.tick.rxEvent = s.rxEvent := by
  unfold State.tick; split <;> try split
  all_goals simp
@[simp] theorem State.tick_txQueue : s.tick.txQueue = s.txQueue := by
  unfold State.tick; split <;> try split
  all_goals simp
@[simp] theorem State.tick_linkTx : s.tick.linkTx = s.linkTx := by
  unfold State.tick; split <;> try split
  all_goals simp
@[simp] theorem State.tick_inputs : s.tick.inputs = s.inputs := by
  unfold State.tick; split <;> try split
  all_goals simp
@[simp] theorem State.tick_mem : s.tick.mem = s.mem := by
  unfold State.tick; split <;> try split
  all_goals simp
@[simp] theorem State.tick_targetAnswer : s.tick.targetAnswer = s.targetAnswer := by
  unfold State.tick; split <;> try split
  all_goals simp

/-! ### settle -/

@[simp] theorem settleAck_params (q e : Byte) : (settleAck q e s).params = s.params := by
  unfold settleAck; split <;> try split
  all_goals simp
@[simp] theorem settleReadResp_params (a : U32) (w : Byte) (c : U16) (v : Bytes) :
    (settleReadResp a w c v s).params = s.params := by
  unfold settleReadResp; split <;> try split
  all_goals simp
@[simp] theorem settleAck_rx (q e : Byte) : (settleAck q e s).rx = s.rx := by
  unfold settleAck; split <;> try split
  all_goals simp
@[simp] theorem settleReadResp_rx (a : U32) (w : Byte) (c : U16) (v : Bytes) :
    (settleReadResp a w c v s).rx = s.rx := by
  unfold settleReadResp; split <;> try split
  all_goals simp
@[simp] theorem settleAck_rxEvent (q e : Byte) : (settleAck q e s).rxEvent = s.rxEvent := by
  unfold settleAck; split <;> try split
  all_goals simp
@[simp] theorem settleReadResp_rxEvent (a : U32) (w : Byte) (c : U16) (v : Bytes) :
    (settleReadResp a w c v s).rxEvent = s.rxEvent := by
  unfold settleReadResp; split <;> try split
  all_goals simp
@[simp] theorem settleAck_txQueue (q e : Byte) : (settleAck q e s).txQueue = s.txQueue := by
  unfold settleAck; split <;> try split
  all_goals simp
@[simp] theorem settleReadResp_txQueue (a : U32) (w : Byte) (c : U16) (v : Bytes) :
    (settleReadResp a w c v s).txQueue = s.txQueue := by
  unfold settleReadResp; split <;> try split
  all_goals simp
@[simp] theorem settleAck_linkTx (q e : Byte) : (settleAck q e s).linkTx = s.linkTx := by
  unfold settleAck; split <;> try split
  all_goals simp
@[simp] theorem settleReadResp_linkTx (a : U32) (w : Byte) (c : U16) (v : Bytes) :
    (settleReadResp a w c v s).linkTx = s.linkTx := by
  unfold settleReadResp; split <;> try split
  all_goals simp
@[simp] theorem settleAck_inputs (q e : Byte) : (settleAck q e s).inputs = s.inputs := by
  unfold settleAck; split <;> try split
  all_goals simp
@[simp] theorem settleReadResp_inputs (a : U32) (w : Byte) (c : U16) (v : Bytes) :
    (settleReadResp a w c v s).inputs = s.inputs := by
  unfold settleReadResp; split <;> try split
  all_goals simp
@[simp] theorem settleAck_mem (q e : Byte) : (settleAck q e s).mem = s.mem := by
  unfold settleAck; split <;> try split
  all_goals simp
@[simp] theorem settleReadResp_mem (a : U32) (w : Byte) (c : U16) (v : Bytes) :
    (settleReadResp a w c v s).mem = s.mem := by
  unfold settleReadResp; split <;> try split
  all_goals simp
@[simp] theorem settleAck_targetAnswer (q e : Byte) : (settleAck q e s).targetAnswer = s.targetAnswer := by
  unfold settleAck; split <;> try split
  all_goals simp
@[simp] theorem settleReadResp_targetAnswer (a : U32) (w : Byte) (c : U16) (v : Bytes) :
    (settleReadResp a w c v s).targetAnswer = s.targetAnswer := by
  unfold settleReadResp; split <;> try split
  all_goals simp

end Sys2Proof.Machine
end

