-- ==== Sys2Proof/Laws/Fields.lean ====
section
/-! SUPPORT. Multi-byte fields: lengths, and that a field's value is the value written into it. -/

namespace Sys2Proof

@[simp] theorem leBytes_length (n v : Nat) : (leBytes n v).length = n := by
  induction n generalizing v with
  | zero => rfl
  | succ n ih => simp [leBytes, ih]

@[simp] theorem toField_length (o : ByteOrder) (n v : Nat) : (toField o n v).length = n := by
  cases o <;> simp [toField]

theorem fromLE_leBytes (n v : Nat) : fromLE (leBytes n v) = v % 256 ^ n := by
  induction n generalizing v with
  | zero => simp [leBytes, fromLE, Nat.mod_one]
  | succ n ih =>
    have hp : 256 ^ (n + 1) = 256 * 256 ^ n := by rw [Nat.pow_succ, Nat.mul_comm]
    simp only [leBytes, fromLE, ih, BitVec.toNat_ofNat]
    rw [hp, Nat.mod_mul]

theorem fromLE_lt (b : Bytes) : fromLE b < 256 ^ b.length := by
  induction b with
  | nil => simp [fromLE]
  | cons c r ih =>
    have := c.isLt
    simp only [fromLE, List.length_cons, Nat.pow_succ]
    omega

theorem leBytes_fromLE (b : Bytes) : leBytes b.length (fromLE b) = b := by
  induction b with
  | nil => rfl
  | cons c r ih =>
    have h := c.isLt
    simp only [List.length_cons, fromLE, leBytes]
    rw [show (c.toNat + 256 * fromLE r) / 256 = fromLE r by omega, ih]
    congr 1
    apply BitVec.eq_of_toNat_eq
    simp only [BitVec.toNat_ofNat]
    omega

theorem ofField_toField (o : ByteOrder) (n v : Nat) : ofField o (toField o n v) = v % 256 ^ n := by
  cases o <;> simp [toField, ofField, fromLE_leBytes]

theorem ofField_lt (o : ByteOrder) (b : Bytes) : ofField o b < 256 ^ b.length := by
  cases o
  · exact fromLE_lt b
  · simpa [ofField] using fromLE_lt b.reverse

theorem toField_ofField (o : ByteOrder) (b : Bytes) : toField o b.length (ofField o b) = b := by
  cases o
  · exact leBytes_fromLE b
  · have := leBytes_fromLE b.reverse
    simp only [List.length_reverse] at this
    simp [toField, ofField, this]

/-- A field of `n` bytes written from the value of `n` bytes is those bytes. -/
theorem toField_ofField_of_length {o : ByteOrder} {b : Bytes} {n : Nat} (h : b.length = n) :
    toField o n (ofField o b) = b := h ▸ toField_ofField o b

end Sys2Proof
end

