-- ==== Sys2Proof/Laws/Codec.lean ====
section
/-! SUPPORT. Layout, Deserialize and Validate: lengths, and what each answers on a header and a payload. -/

namespace Sys2Proof

/-- The payload is as long as the fields' sizes say (R182 to R187). -/
theorem Command.payload_length (p : Params) (c : Command) : (c.payload p).length =
    match c with
    | .echo d => d.length
    | .read _ _ _ => 7
    | .write _ _ _ v => 7 + v.length
    | .setclr _ _ m v => 5 + m.length + v.length
    | .readResp _ _ _ v => 7 + v.length
    | .ack _ _ => 2 := by
  cases c <;> simp [Command.payload] <;> omega

@[simp] theorem withHeader_length (p : Params) (cmd : Byte) (pl : Bytes) :
    (withHeader p cmd pl).length = 3 + pl.length := by
  simp [withHeader]; omega

@[simp] theorem layout_length (p : Params) (c : Command) : (layout p c).length = 3 + (c.payload p).length :=
  withHeader_length p _ _

/-- The three bounds of `lengthFits`. -/
theorem lengthFits_iff {p : Params} {n : Nat} :
    lengthFits p n = true ↔ p.minCmdLen ≤ 3 + n ∧ 3 + n ≤ p.maxCmdLen ∧ n < 65536 := by
  simp only [lengthFits, Bool.and_eq_true, decide_eq_true_eq, and_assoc]
  rfl

/-- A two-byte list is its two bytes. -/
theorem two_bytes {l : Bytes} (h : l.length = 2) : ∃ a b, l = [a, b] := by
  match l, h with
  | [a, b], _ => exact ⟨a, b, rfl⟩

/-- Deserialize on a header and a payload whose length fits: the length checks pass (R201). -/
theorem deserialize_withHeader {p : Params} {cmd : Byte} {pl : Bytes} (h : lengthFits p pl.length = true) :
    deserialize p (withHeader p cmd pl) = desVariant p cmd pl := by
  simp only [lengthFits, Bool.and_eq_true, decide_eq_true_eq] at h
  obtain ⟨a, b, hab⟩ := two_bytes (toField_length p.fieldEndian 2 pl.length)
  have hv : ofField p.fieldEndian [a, b] = pl.length := by
    rw [← hab, ofField_toField]
    exact Nat.mod_eq_of_lt (by simpa using h.2)
  simp only [withHeader, hab, List.cons_append, List.nil_append, deserialize]
  rw [if_neg (by omega), if_neg (by simp [hv])]

/-- What deserialised has three header bytes, a length in range and a `len` that agrees (R201). -/
theorem deserialize_ok {p : Params} {x : Bytes} {r : Except DesError Command} (h : deserialize p x = r)
    (hr : r ≠ .error .badCmdLen) :
    ∃ cmd l0 l1 pl, x = cmd :: l0 :: l1 :: pl ∧ p.minCmdLen ≤ 3 + pl.length ∧ 3 + pl.length ≤ p.maxCmdLen ∧
      pl.length = ofField p.fieldEndian [l0, l1] ∧ desVariant p cmd pl = r := by
  unfold deserialize at h
  split at h
  · next cmd l0 l1 pl =>
    split at h
    · exact absurd h.symm hr
    · split at h
      · exact absurd h.symm hr
      · next h1 h2 => exact ⟨cmd, l0, l1, pl, rfl, by simp only [hdrSize] at *; omega, by simp only [hdrSize] at *; omega,
          by omega, h⟩
  · exact absurd h.symm hr

/-- The fields of a payload that begins `addr(4) width(1)`. -/
theorem fixedFields {p : Params} (a : U32) (w : Byte) (rest : Bytes) :
    addrField p (toField p.fieldEndian 4 a.toNat ++ [w] ++ rest) = a ∧
    widthField (toField p.fieldEndian 4 a.toNat ++ [w] ++ rest) = w ∧
    (toField p.fieldEndian 4 a.toNat ++ [w] ++ rest).drop 5 = rest := by
  have h4 : (toField p.fieldEndian 4 a.toNat).length = 4 := toField_length _ _ _
  refine ⟨?_, ?_, ?_⟩
  · unfold addrField
    rw [List.append_assoc, List.take_append_of_le_length (by omega), List.take_of_length_le (by omega), ofField_toField,
      Nat.mod_eq_of_lt (by have := a.isLt; omega)]
    simp
  · unfold widthField
    rw [List.append_assoc, List.getD_append_right _ _ _ _ (by omega)]
    simp
  · rw [List.drop_append_of_le_length (by simp), List.drop_of_length_le (by simp), List.nil_append]

/-- The fields of a payload that begins `addr(4) width(1) count(2)`. -/
theorem countedFields {p : Params} (a : U32) (w : Byte) (c : U16) (v : Bytes) :
    let pl := toField p.fieldEndian 4 a.toNat ++ [w] ++ toField p.fieldEndian 2 c.toNat ++ v
    addrField p pl = a ∧ widthField pl = w ∧ countField p pl = c ∧ pl.drop 7 = v := by
  intro pl
  have hpl : pl = toField p.fieldEndian 4 a.toNat ++ [w] ++ (toField p.fieldEndian 2 c.toNat ++ v) := by simp [pl]
  obtain ⟨ha, hw, hd⟩ := fixedFields (p := p) a w (toField p.fieldEndian 2 c.toNat ++ v)
  rw [← hpl] at ha hw hd
  refine ⟨ha, hw, ?_, ?_⟩
  · unfold countField
    rw [hd, List.take_append_of_le_length (by simp), List.take_of_length_le (by simp), ofField_toField,
      Nat.mod_eq_of_lt (by have := c.isLt; omega)]
    simp
  · rw [show (7 : Nat) = 5 + 2 from rfl, ← List.drop_drop, hd, List.drop_append_of_le_length (by simp),
      List.drop_of_length_le (by simp), List.nil_append]

/-- R204 on a payload of the right length. -/
theorem desRead_ok {p : Params} {pl : Bytes} (h : pl.length = 7) :
    desRead p pl = .ok (.read (addrField p pl) (widthField pl) (countField p pl)) :=
  if_neg (fun hn => hn h)

/-- R205 on a payload of the right length. -/
theorem desWrite_ok {p : Params} {pl : Bytes} (h : pl.length = 7 + (countField p pl).toNat * (widthField pl).toNat) :
    desWrite p pl = .ok (.write (addrField p pl) (widthField pl) (countField p pl) (pl.drop 7)) :=
  (if_neg (by omega)).trans (if_neg (fun hn => hn h))

/-- R206 on a payload of the right length. -/
theorem desSetclr_ok {p : Params} {pl : Bytes} (h : pl.length = 5 + 2 * (widthField pl).toNat) :
    desSetclr p pl = .ok (.setclr (addrField p pl) (widthField pl) ((pl.drop 5).take (widthField pl).toNat)
      ((pl.drop 5).drop (widthField pl).toNat)) := by
  rw [List.drop_drop]
  exact (if_neg (by omega)).trans (if_neg (fun hn => hn h))

/-- R207 on a payload of the right length. -/
theorem desReadResp_ok {p : Params} {pl : Bytes} (h : pl.length = 7 + (countField p pl).toNat * (widthField pl).toNat) :
    desReadResp p pl = .ok (.readResp (addrField p pl) (widthField pl) (countField p pl) (pl.drop 7)) :=
  (if_neg (by omega)).trans (if_neg (fun hn => hn h))

/-- Deserialize's variant rule on the payload of a command whose byte strings have the sizes its fields say. -/
theorem desVariant_payload {p : Params} {c : Command} (h : (Instr.wellFormed p c.transmitted) = true) :
    desVariant p c.code (c.payload p) = .ok c := by
  have hl := Command.payload_length p c
  cases c with
  | echo d =>
    simp only [Command.transmitted, Instr.wellFormed, Bool.and_eq_true, decide_eq_true_eq] at h
    exact if_neg (by omega : ¬ d.length < 1)
  | read a w c =>
    obtain ⟨ha, hw, hc, -⟩ := countedFields (p := p) a w c []
    simp only [List.append_nil] at ha hw hc
    exact (desRead_ok hl).trans (by simp only [Command.payload, ha, hw, hc])
  | write a w c v =>
    simp only [Command.transmitted, Instr.wellFormed, Bool.and_eq_true, decide_eq_true_eq] at h
    obtain ⟨ha, hw, hc, hv⟩ := countedFields (p := p) a w c v
    exact (desWrite_ok (by rw [hl]; simp only [Command.payload, hw, hc, h.1])).trans
      (by simp only [Command.payload, ha, hw, hc, hv])
  | setclr a w m v =>
    simp only [Command.transmitted, Instr.wellFormed, Bool.and_eq_true, decide_eq_true_eq] at h
    have hpl : (Command.setclr a w m v).payload p = toField p.fieldEndian 4 a.toNat ++ [w] ++ (m ++ v) := by
      simp [Command.payload]
    obtain ⟨ha, hw, hd⟩ := fixedFields (p := p) a w (m ++ v)
    rw [← hpl] at ha hw hd
    refine (desSetclr_ok (by rw [hl, hw]; simp only; omega)).trans ?_
    rw [ha, hw, hd, List.take_append_of_le_length (by omega), List.take_of_length_le (by omega),
      List.drop_append_of_le_length (by omega), List.drop_of_length_le (by omega), List.nil_append]
  | readResp a w c v =>
    simp only [Command.transmitted, Instr.wellFormed, Bool.and_eq_true, decide_eq_true_eq] at h
    obtain ⟨ha, hw, hc, hv⟩ := countedFields (p := p) a w c v
    exact (desReadResp_ok (by rw [hl]; simp only [Command.payload, hw, hc, h.1])).trans
      (by simp only [Command.payload, ha, hw, hc, hv])
  | ack r e => rfl

/-- The length of a command's payload fits where the command is well formed (R84). -/
theorem lengthFits_payload {p : Params} {c : Command} (h : (Instr.wellFormed p c.transmitted) = true) :
    lengthFits p (c.payload p).length = true := by
  rw [Command.payload_length]
  cases c <;> simp only [Command.transmitted, Instr.wellFormed, Bool.and_eq_true, decide_eq_true_eq] at h ⊢
  · exact h.2
  · exact h
  · exact h.2
  · next a w m v => rw [show 5 + m.length + v.length = 5 + 2 * w.toNat by omega]; exact h.2
  · exact h.2
  · exact h

/-- Deserialize undoes Layout on every well-formed command. -/
theorem deserialize_layout {p : Params} {c : Command} (h : (Instr.wellFormed p c.transmitted) = true) :
    deserialize p (layout p c) = .ok c :=
  (deserialize_withHeader (lengthFits_payload h)).trans (desVariant_payload h)

/-- A reserved tag is BadCmd (R202). -/
theorem desVariant_reserved {p : Params} {cmd : Byte} {pl : Bytes} (h : isReservedCmd cmd = true) :
    desVariant p cmd pl = .error .badCmd := by
  have h0 : ∀ k : Byte, isReservedCmd k = false → cmd ≠ k := fun k hk he => by simp [he, hk] at h
  unfold desVariant
  rw [if_neg (h0 _ (by decide)), if_neg (h0 _ (by decide)), if_neg (h0 _ (by decide)), if_neg (h0 _ (by decide)),
    if_neg (h0 _ (by decide)), if_neg (h0 _ (by decide))]

end Sys2Proof
end

