-- ==== Sys2Proof/Laws/Framer.lean ====
section
/-! SUPPORT. Stuff, Unstuff and the frame (41_framer_tx.md R130 to R135; 42_deframer_rx.md R164). -/

namespace Sys2Proof.Machine

/-- A stuffed sequence holds no FLAG (R139 (a)). -/
theorem stuff_noFlag (t : Bytes) : ∀ b ∈ stuff t, b ≠ flagByte := by
  induction t with
  | nil => simp [stuff]
  | cons c r ih =>
    intro b hb
    simp only [stuff] at hb
    split at hb
    · next hc =>
      rcases List.mem_cons.1 hb with rfl | hb
      · decide
      · rcases List.mem_cons.1 hb with rfl | hb
        · rcases hc with rfl | rfl <;> decide
        · exact ih b hb
    · next hc =>
      rcases List.mem_cons.1 hb with rfl | hb
      · exact fun h => hc (.inl h)
      · exact ih b hb

/-- Each escaped byte adds one (R135). -/
theorem stuff_length (t : Bytes) : (stuff t).length = t.length + t.countP (fun b => b = flagByte || b = escByte) := by
  induction t with
  | nil => rfl
  | cons c r ih =>
    simp only [stuff]
    split
    · next hc => rw [List.countP_cons_of_pos (by simpa using hc)]; simp only [List.length_cons, ih]; omega
    · next hc => rw [List.countP_cons_of_neg (by simpa using hc)]; simp only [List.length_cons, ih]; omega

/-- Every escape byte of a stuffed sequence is followed by `5E` or `5D` (R139 (b)). -/
theorem stuff_escape (t before after : Bytes) (h : stuff t = before ++ [escByte] ++ after) :
    after.head? = some 0x5E ∨ after.head? = some 0x5D := by
  induction t generalizing before with
  | nil => simp [stuff] at h
  | cons c r ih =>
    simp only [stuff] at h
    split at h
    · next hc =>
      cases before with
      | nil =>
        simp only [List.nil_append, List.cons_append, List.cons.injEq, true_and] at h
        rw [← h]
        rcases hc with rfl | rfl
        · left; rfl
        · right; rfl
      | cons d before =>
        cases before with
        | nil =>
          simp only [List.nil_append, List.cons_append, List.cons.injEq] at h
          exfalso
          rcases hc with rfl | rfl <;> exact absurd h.2.1 (by decide)
        | cons e before =>
          simp only [List.cons_append, List.cons.injEq] at h
          exact ih before h.2.2
    · next hc =>
      cases before with
      | nil =>
        simp only [List.nil_append, List.cons_append, List.cons.injEq] at h
        exact absurd (.inr h.1) hc
      | cons d before =>
        simp only [List.cons_append, List.cons.injEq] at h
        exact ih before h.2

/-- A byte other than ESC stands for itself (R164). -/
theorem unstuff_literal {b : Byte} (h : b ≠ escByte) (r : Bytes) : unstuff (b :: r) = (unstuff r).map fun t => b :: t := by
  cases r <;> simp [unstuff, h]

/-- An escape pair stands for its second byte with 0x20 flipped (R164). -/
theorem unstuff_pair (c : Byte) (r : Bytes) :
    unstuff (escByte :: c :: r) = (unstuff r).map fun t => (c ^^^ escXor) :: t := by
  simp [unstuff]

/-- Unstuff undoes Stuff (R164). -/
theorem unstuff_stuff (t : Bytes) : unstuff (stuff t) = some t := by
  induction t with
  | nil => rfl
  | cons c r ih =>
    simp only [stuff]
    split
    · next hc =>
      rw [unstuff_pair, ih]
      rcases hc with rfl | rfl <;> rfl
    · next hc =>
      rw [unstuff_literal (fun h => hc (.inr h)), ih]
      rfl

@[simp] theorem crcBytes_length (p : Params) (c : U16) : (crcBytes p c).length = 2 := toField_length _ _ _

/-- The two CRC bytes carry the CRC (R131, R124). -/
@[simp] theorem crcOfBytes_crcBytes (p : Params) (c : U16) : crcOfBytes p (crcBytes p c) = c := by
  unfold crcOfBytes crcBytes
  rw [ofField_toField, Nat.mod_eq_of_lt (by have := c.isLt; omega)]
  simp

/-- The length of a frame (R135). -/
theorem frameOf_length (p : Params) (x : Bytes) : (frameOf p x).length =
    x.length + 4 + (x ++ crcBytes p (crc16 p.crc x)).countP (fun b => b = flagByte || b = escByte) := by
  simp only [frameOf, List.length_append, List.length_singleton, stuff_length, crcBytes_length]
  omega

theorem frameOf_length_le (p : Params) (x : Bytes) : (frameOf p x).length ≤ 2 * (x.length + 2) + 2 := by
  have h := List.countP_le_length (p := fun b : Byte => b = flagByte || b = escByte)
    (l := x ++ crcBytes p (crc16 p.crc x))
  rw [frameOf_length]
  simp only [List.length_append, crcBytes_length] at h
  omega

/-- Encode succeeds exactly on what fits, with the frame (R130, R134). -/
theorem encodeFrame_ok {p : Params} {x f : Bytes} :
    encodeFrame p x = .ok f ↔ x.length ≤ p.maxCmdLen ∧ f = frameOf p x := by
  unfold encodeFrame
  split
  · next h => simp; omega
  · next h =>
    simp only [Except.ok.injEq]
    exact ⟨fun e => ⟨by omega, e.symm⟩, fun e => e.2.symm⟩

theorem encodeFrame_fits {p : Params} {x : Bytes} (h : x.length ≤ p.maxCmdLen) : encodeFrame p x = .ok (frameOf p x) :=
  encodeFrame_ok.2 ⟨h, rfl⟩

/-- A frame Encode gives fits `tx_queue` (R26). -/
theorem frameOf_rawCap {p : Params} {x : Bytes} (h : x.length ≤ p.maxCmdLen) : (frameOf p x).length ≤ p.rawCap := by
  have := frameOf_length_le p x
  unfold Params.rawCap crcSize
  omega

end Sys2Proof.Machine
end

