-- ==== Sys2Proof/Laws/Memory.lean ====
section
/-! SUPPORT. The register space: read after write, and every operation keeps the canonical form. -/

namespace Sys2Proof.Machine

theorem Memory.read_cons (a : Nat) (b : Byte) (m : Memory) (h : ∀ c ∈ m, a < c.1) (x : Nat) :
    Memory.read (Memory.cons a b m) x = if a = x then b else Memory.read m x := by
  unfold Memory.cons
  split
  · next hb =>
    split
    · next hx =>
      subst hx hb
      induction m with
      | nil => rfl
      | cons c r ih =>
        have hc := h c (by simp)
        have := ih (fun d hd => h d (by simp [hd]))
        obtain ⟨k, v⟩ := c
        simp only [Memory.read]
        rw [if_neg (by simp at hc; omega), this]
    · rfl
  · rfl

/-- Every address before all entries of a sorted memory's tail stays before them. -/
theorem Memory.wf_tail {c : Host.Cell} {m : Memory} (h : Memory.wf (c :: m)) : Memory.wf m :=
  ⟨(List.pairwise_cons.1 h.1).2, fun d hd => h.2 d (by simp [hd])⟩

theorem Memory.read_write {m : Memory} (h : Memory.wf m) (a : Nat) (b : Byte) (x : Nat) :
    Memory.read (Memory.write m a b) x = if a = x then b else Memory.read m x := by
  induction m with
  | nil => exact Memory.read_cons a b [] (by simp) x
  | cons c r ih =>
    obtain ⟨k, v⟩ := c
    have hk := (List.pairwise_cons.1 h.1).1
    simp only [Memory.write]
    split
    · next hlt =>
      refine Memory.read_cons a b _ ?_ x
      intro d hd
      rcases List.mem_cons.1 hd with rfl | hd
      · exact hlt
      · exact lt_trans hlt (hk d hd)
    · split
      · next heq =>
        subst heq
        rw [Memory.read_cons a b r (fun d hd => hk d hd)]
        simp only [Memory.read]
        split <;> rfl
      · next hne =>
        simp only [Memory.read, ih (Memory.wf_tail h)]
        by_cases hkx : k = x
        · subst hkx; simp [hne]
        · simp [hkx]

theorem Memory.wf_cons {a : Nat} {b : Byte} {m : Memory} (h : Memory.wf m) (ha : a < 2 ^ 32)
    (hm : ∀ c ∈ m, a < c.1) : Memory.wf (Memory.cons a b m) := by
  unfold Memory.cons
  split
  · exact h
  · next hb =>
    refine ⟨List.pairwise_cons.2 ⟨fun c hc => hm c hc, h.1⟩, fun c hc => ?_⟩
    rcases List.mem_cons.1 hc with rfl | hc
    · exact ⟨hb, ha⟩
    · exact h.2 c hc

theorem Memory.mem_write {m : Memory} {a : Nat} {b : Byte} {c : Host.Cell} (h : c ∈ Memory.write m a b) :
    c.1 = a ∨ c ∈ m := by
  have front : ∀ (r : Memory), c ∈ Memory.cons a b r → c.1 = a ∨ c ∈ r := by
    intro r hr
    unfold Memory.cons at hr
    split at hr
    · exact .inr hr
    · rcases List.mem_cons.1 hr with rfl | hr
      · exact .inl rfl
      · exact .inr hr
  induction m with
  | nil => exact front [] h
  | cons d r ih =>
    obtain ⟨k, v⟩ := d
    simp only [Memory.write] at h
    split at h
    · exact front _ h
    · split at h
      · exact (front _ h).imp_right (by simp +contextual)
      · rcases List.mem_cons.1 h with rfl | h
        · simp
        · exact (ih h).imp_right (by simp +contextual)

/-- A write below 2^32 keeps the canonical form. -/
theorem Memory.write_wf {m : Memory} (h : Memory.wf m) {a : Nat} (ha : a < 2 ^ 32) (b : Byte) :
    Memory.wf (Memory.write m a b) := by
  induction m with
  | nil => exact Memory.wf_cons h ha (by simp)
  | cons c r ih =>
    obtain ⟨k, v⟩ := c
    have hk := (List.pairwise_cons.1 h.1).1
    simp only [Memory.write]
    split
    · next hlt =>
      refine Memory.wf_cons h ha fun d hd => ?_
      rcases List.mem_cons.1 hd with rfl | hd
      · exact hlt
      · exact lt_trans hlt (hk d hd)
    · split
      · next heq =>
        subst heq
        exact Memory.wf_cons (Memory.wf_tail h) ha (fun d hd => hk d hd)
      · next hge hne =>
        have htail := ih (Memory.wf_tail h)
        refine ⟨List.pairwise_cons.2 ⟨fun d hd => ?_, htail.1⟩, fun d hd => ?_⟩
        · rcases Memory.mem_write hd with hd | hd
          · simp only [hd]; omega
          · exact hk d hd
        · rcases List.mem_cons.1 hd with rfl | hd
          · exact h.2 _ (by simp)
          · exact htail.2 d hd

theorem targetAddr_lt (a : Nat) : targetAddr a < 2 ^ 32 := by
  unfold targetAddr
  split
  · assumption
  · exact (Config.addrBeyondTop a).isLt

theorem targetAddr_of_lt {a : Nat} (h : a < 2 ^ 32) : targetAddr a = a := if_pos h

theorem Memory.writeBytes_wf {m : Memory} (h : Memory.wf m) (a : Nat) (b : Bytes) :
    Memory.wf (Memory.writeBytes m a b) := by
  induction b generalizing m a with
  | nil => exact h
  | cons c r ih => exact ih (Memory.write_wf h (targetAddr_lt a) c) (a + 1)

theorem memWrite_wf {m : Memory} (h : Memory.wf m) (a n v : Nat) : Memory.wf (memWrite m a n v) :=
  Memory.writeBytes_wf h a _

theorem writeElements_wf (o : ByteOrder) {m : Memory} (h : Memory.wf m) (a w : Nat) (v : Bytes) (n : Nat) :
    Memory.wf (writeElements o m a w v n) := by
  induction n generalizing m a v with
  | zero => exact h
  | succ n ih => exact ih (memWrite_wf h a w _) (a + w) (v.drop w)

/-- Bytes stored below 2^32: the byte read is the one stored there, and every other address reads as before. -/
theorem Memory.read_writeBytes {m : Memory} (h : Memory.wf m) {a : Nat} {b : Bytes} (hb : a + b.length ≤ 2 ^ 32) (x : Nat) :
    Memory.read (Memory.writeBytes m a b) x =
      if a ≤ x ∧ x < a + b.length then b.getD (x - a) 0 else Memory.read m x := by
  induction b generalizing m a with
  | nil => simp [Memory.writeBytes, show ¬(a ≤ x ∧ x < a) by omega]
  | cons c r ih =>
    simp only [List.length_cons] at hb
    have ha : targetAddr a = a := targetAddr_of_lt (by omega)
    simp only [Memory.writeBytes, ha]
    rw [ih (Memory.write_wf h (by omega) c) (by omega), Memory.read_write h]
    simp only [List.length_cons]
    by_cases hx : a = x
    · subst hx; simp
    · by_cases hr : a + 1 ≤ x ∧ x < a + 1 + r.length
      · rw [if_pos hr, if_pos (by omega), show x - a = (x - (a + 1)) + 1 by omega]
        simp
      · rw [if_neg hr, if_neg hx, if_neg (by omega)]

/-- The register space after reset lists nothing and is canonical. -/
theorem reset_mem_wf : Memory.wf State.reset.mem := ⟨List.Pairwise.nil, by simp [State.reset]⟩

theorem Memory.readBytes_length (m : Memory) (a n : Nat) : (Memory.readBytes m a n).length = n := by
  induction n generalizing a with
  | zero => rfl
  | succ n ih => simp [Memory.readBytes, ih]

end Sys2Proof.Machine
end

