-- ==== Sys2Proof/Laws/Commands.lean ====
section
/-! SUPPORT. What sending, requesting, serving and settling a command can do: one lemma for each shared operation, which later
proofs cite instead of unfolding it. -/

namespace Sys2Proof.Machine

/-! ### Validate -/

theorem legalWidth_iff (w : Byte) : legalWidth w = true ↔ w.toNat = 1 ∨ w.toNat = 2 ∨ w.toNat = 4 := by
  revert w; decide

theorem legalCount_iff (c : U16) : legalCount c = true ↔ 1 ≤ c.toNat ∧ c.toNat ≤ 256 := by
  simp only [legalCount, Bool.and_eq_true, decide_eq_true_eq]
  rfl

theorem aligned_iff (a : U32) (w : Byte) : aligned a w = true ↔ a.toNat % w.toNat = 0 := by simp [aligned]

/-- What Validate accepts (R212). -/
theorem validateRead_none {a : U32} {w : Byte} {c : U16} : validateRead a w c = none ↔
    legalWidth w = true ∧ legalCount c = true ∧ aligned a w = true := by
  unfold validateRead
  cases legalWidth w <;> cases legalCount c <;> cases aligned a w <;> simp

/-- What Validate accepts (R213, R215). -/
theorem validateValues_none {a : U32} {w : Byte} {c : U16} {v : Bytes} : validateValues a w c v = none ↔
    legalWidth w = true ∧ legalCount c = true ∧ v.length = c.toNat * w.toNat ∧ aligned a w = true := by
  unfold validateValues
  by_cases hv : v.length = c.toNat * w.toNat <;>
    cases legalWidth w <;> cases legalCount c <;> cases aligned a w <;> simp [hv]

/-- What Validate accepts (R214). -/
theorem validateSetclr_none {a : U32} {w : Byte} {m v : Bytes} : validateSetclr a w m v = none ↔
    legalWidth w = true ∧ m.length = w.toNat ∧ v.length = w.toNat ∧ aligned a w = true := by
  unfold validateSetclr
  by_cases hm : m.length = w.toNat <;> by_cases hv : v.length = w.toNat <;>
    cases legalWidth w <;> cases aligned a w <;> simp [hm, hv]

/-- A legal `count × width` is at most 1024 (R91). -/
theorem legal_product {w : Byte} {c : U16} (hw : legalWidth w = true) (hc : legalCount c = true) :
    c.toNat * w.toNat ≤ 1024 ∧ 1 ≤ c.toNat * w.toNat := by
  rw [legalWidth_iff] at hw
  rw [legalCount_iff] at hc
  rcases hw with h | h | h <;> rw [h] <;> omega

/-- In an admissible build the encoding holds whatever Validate accepts (R189). -/
theorem wellFormed_of_validate {p : Params} (hp : p.admissible) {c : Command} (h : validate p c = none) :
    Instr.wellFormed p c.transmitted = true := by
  obtain ⟨h1, h2, h3, h4, h5⟩ := hp
  simp only [hdrSize] at h5
  cases c <;> simp only [validate] at h
  case echo d =>
    unfold validateEcho at h
    simp only [ite_eq_right_iff, reduceCtorEq, imp_false] at h
    simp only [Command.transmitted, Instr.wellFormed, Bool.and_eq_true, decide_eq_true_eq, lengthFits_iff]
    omega
  case read a w c =>
    simp only [Command.transmitted, Instr.wellFormed, lengthFits_iff]
    omega
  case write a w c v =>
    obtain ⟨hw, hc, hv, -⟩ := validateValues_none.1 h
    have := legal_product hw hc
    simp only [Command.transmitted, Instr.wellFormed, Bool.and_eq_true, decide_eq_true_eq, lengthFits_iff]
    omega
  case setclr a w m v =>
    obtain ⟨hw, hm, hv, -⟩ := validateSetclr_none.1 h
    rw [legalWidth_iff] at hw
    simp only [Command.transmitted, Instr.wellFormed, Bool.and_eq_true, decide_eq_true_eq, lengthFits_iff]
    omega
  case readResp a w c v =>
    obtain ⟨hw, hc, hv, -⟩ := validateValues_none.1 h
    have := legal_product hw hc
    simp only [Command.transmitted, Instr.wellFormed, Bool.and_eq_true, decide_eq_true_eq, lengthFits_iff]
    omega
  case ack q e =>
    simp only [Command.transmitted, Instr.wellFormed, lengthFits_iff]
    omega

/-- In an admissible build whatever Validate accepts fits a frame (R189). -/
theorem layout_fits {p : Params} (hp : p.admissible) {c : Command} (h : validate p c = none) :
    (layout p c).length ≤ p.maxCmdLen := by
  have := lengthFits_payload (wellFormed_of_validate hp h)
  rw [lengthFits_iff] at this
  rw [layout_length]
  omega

/-! ### Sending -/

theorem State.txBusy_iff (s : State) : s.txBusy = true ↔ s.txQueue ≠ [] := by
  simp [State.txBusy, List.length_pos_iff]

theorem State.txBusy_false {s : State} (h : s.txQueue = []) : s.txBusy = false := by simp [State.txBusy, h]

/-- `TxStart` with its continuations does one of three things (R136). -/
theorem State.txStartThen_cases (s : State) (x : Bytes) (f : State → State) (g : ErrorCode → State → State) :
    (s.txBusy = true ∧ s.txStartThen x f g = .refused .txBusy) ∨
    (s.txQueue = [] ∧ s.params.maxCmdLen < x.length ∧ s.txStartThen x f g = .next (g .badCmdLen s)) ∨
    (s.txQueue = [] ∧ x.length ≤ s.params.maxCmdLen ∧ s.txStartThen x f g = .next (f (s.load (frameOf s.params x)))) := by
  by_cases hb : s.txBusy = true
  · exact .inl ⟨hb, by simp [State.txStartThen, hb]⟩
  · have hq : s.txQueue = [] := by simpa [State.txBusy_iff] using hb
    by_cases hx : x.length ≤ s.params.maxCmdLen
    · exact .inr (.inr ⟨hq, hx, by simp [State.txStartThen, hb, encodeFrame_fits hx]⟩)
    · exact .inr (.inl ⟨hq, by omega, by simp [State.txStartThen, hb, encodeFrame, show s.params.maxCmdLen < x.length by omega]⟩)

theorem State.txStart_cases (s : State) (x : Bytes) :
    (s.txBusy = true ∧ s.txStart x = .refused .txBusy) ∨
    (s.txQueue = [] ∧ s.params.maxCmdLen < x.length ∧ s.txStart x = .next (s.answer (.callError .badCmdLen))) ∨
    (s.txQueue = [] ∧ x.length ≤ s.params.maxCmdLen ∧
      s.txStart x = .next ((s.load (frameOf s.params x)).answer .accepted)) :=
  s.txStartThen_cases x _ _

/-- Everything sending a command can do (R180, R136). -/
theorem transmit_cases (c : Command) (s : State) :
    (∃ e, validate s.params c = some e ∧ transmit c s = .next (s.answer (.callError e.code))) ∨
    (validate s.params c = none ∧ transmit c s = s.txStart (layout s.params c)) := by
  unfold transmit serialize
  cases h : validate s.params c <;> simp

theorem transmit_invalid {c : Command} {s : State} {e : FieldError} (h : validate s.params c = some e) :
    transmit c s = .next (s.answer (.callError e.code)) := by
  simp [transmit, serialize, h]

theorem transmit_fits {c : Command} {s : State} (h : validate s.params c = none) (hq : s.txQueue = [])
    (hl : (layout s.params c).length ≤ s.params.maxCmdLen) :
    transmit c s = .next ((s.load (frameOf s.params (layout s.params c))).answer .accepted) := by
  simp [transmit, serialize, h, State.txStart, State.txStartThen, State.txBusy_false hq, encodeFrame_fits hl]

theorem transmit_busy {c : Command} {s : State} (h : validate s.params c = none) (hq : s.txQueue ≠ []) :
    transmit c s = .refused .txBusy := by
  simp [transmit, serialize, h, State.txStart, State.txStartThen, (State.txBusy_iff s).2 hq]

/-- What a step that sends leaves as it was: everything but the queue and the result. -/
theorem transmit_next {c : Command} {s t : State} (h : transmit c s = .next t) :
    ∃ r, t = s.answer r ∨ ∃ x, s.txQueue = [] ∧ x.length ≤ s.params.maxCmdLen ∧
      t = (s.load (frameOf s.params x)).answer r := by
  rcases transmit_cases c s with ⟨e, -, he⟩ | ⟨-, he⟩
  · rw [he] at h; exact ⟨_, .inl (by simpa using h.symm)⟩
  · rw [he] at h
    rcases s.txStart_cases (layout s.params c) with ⟨-, hr⟩ | ⟨-, -, hr⟩ | ⟨hq, hx, hr⟩ <;> rw [hr] at h
    · simp at h
    · exact ⟨_, .inl (by simpa using h.symm)⟩
    · exact ⟨_, .inr ⟨_, hq, hx, by simpa using h.symm⟩⟩

/-- A sender is refused only while `tx_busy`. -/
theorem transmit_refused {c : Command} {s : State} {r : Refusal} (h : transmit c s = .refused r) :
    r = .txBusy ∧ s.txBusy = true := by
  rcases transmit_cases c s with ⟨e, -, he⟩ | ⟨-, he⟩
  · rw [he] at h; simp at h
  · rw [he] at h
    rcases s.txStart_cases (layout s.params c) with ⟨hb, hr⟩ | ⟨-, -, hr⟩ | ⟨-, -, hr⟩ <;> rw [hr] at h
    · exact ⟨by simpa using h.symm, hb⟩
    · simp at h
    · simp at h

/-- The host's send of an ACK: sent, or refused where its `err` is reserved (R98). -/
theorem execAck_transmit_cases (q e : Byte) (s : State) :
    (sendable s.params (.ack q e) = true ∧ execAck .transmit q e s = transmit (.ack q e) s) ∨
    (reservedErr s.params e = true ∧ execAck .transmit q e s = .refused .reservedErr) := by
  by_cases h : reservedErr s.params e = true <;> simp [execAck, sendable, h]

/-- An ACK is always sent where the queue is empty. -/
theorem transmit_ack {s : State} (hp : s.params.admissible) (hq : s.txQueue = []) (req : Byte) (e : ErrorCode) :
    transmit (ackOf s.params req e) s =
      .next ((s.load (frameOf s.params (layout s.params (ackOf s.params req e)))).answer .accepted) :=
  transmit_fits rfl hq (layout_fits hp rfl)

/-! ### Session requests -/

/-- Everything the session's send can do (60_exceptions.md R286). -/
theorem request_cases (c : Command) (s : State) :
    (s.session ≠ .idle ∧ request c s = .refused .callerBlocked) ∨
    (s.session = .idle ∧ s.txBusy = true ∧ request c s = .refused .txBusy) ∨
    (s.session = .idle ∧ ∃ e, request c s = .next (s.finish (.callError e))) ∨
    (s.session = .idle ∧ validate s.params c = none ∧ s.txQueue = [] ∧
      (layout s.params c).length ≤ s.params.maxCmdLen ∧
      request c s = .next ((s.load (frameOf s.params (layout s.params c))).await c)) := by
  unfold request
  cases hs : s.session with
  | awaiting r n => exact .inl (by simp)
  | idle =>
    cases hv : validate s.params c with
    | some e => exact .inr (.inr (.inl ⟨rfl, e.code, by simp [serialize, hv]⟩))
    | none =>
      simp only [serialize, hv]
      rcases s.txStartThen_cases (layout s.params c) (fun t => t.await c) (fun e t => t.finish (.callError e)) with
        ⟨hb, hr⟩ | ⟨-, -, hr⟩ | ⟨hq, hx, hr⟩
      · exact .inr (.inl ⟨trivial, hb, hr⟩)
      · exact .inr (.inr (.inl ⟨trivial, _, hr⟩))
      · exact .inr (.inr (.inr ⟨trivial, trivial, hq, hx, hr⟩))

/-! ### The responder -/

/-- The target's access either fails without touching anything, or is performed (R238). -/
theorem targetAccess_cases (code : Byte) (f : State → State × Command) (s : State) :
    (∃ e, s.targetAnswer = some e ∧ targetAccess code f s = (s, ackOf s.params code e.code)) ∨
    (s.targetAnswer = none ∧ targetAccess code f s = f s) := by
  unfold targetAccess
  cases s.targetAnswer <;> simp

theorem targetAccess_performed {code : Byte} {f : State → State × Command} {s : State} (h : s.targetAnswer = none) :
    targetAccess code f s = f s := by simp [targetAccess, h]

theorem targetAccess_failed {code : Byte} {f : State → State × Command} {s : State} {e : TargetError}
    (h : s.targetAnswer = some e) : targetAccess code f s = (s, ackOf s.params code e.code) := by simp [targetAccess, h]

theorem serve_valid {c : Command} {f : State → State × Command} {s : State} (h : validate s.params c = none) :
    serve c f s = transmit (f s).2 (f s).1 := by simp [serve, h]

theorem serve_invalid {c : Command} {f : State → State × Command} {s : State} {e : FieldError}
    (h : validate s.params c = some e) : serve c f s = transmit (ackOf s.params c.code e.code) s := by simp [serve, h]

/-- The responder always answers by sending one command (R238). -/
theorem serve_cases (c : Command) (f : State → State × Command) (s : State) :
    (∃ e, validate s.params c = some e ∧ serve c f s = transmit (ackOf s.params c.code e.code) s) ∨
    (validate s.params c = none ∧ serve c f s = transmit (f s).2 (f s).1) := by
  unfold serve
  cases h : validate s.params c <;> simp

/-! ### The session -/

/-- An ACK leaves the session as it is, or ends the exchange it names (R288). -/
theorem settleAck_cases (q e : Byte) (s : State) :
    settleAck q e s = s ∨
    ∃ r n, s.session = .awaiting r n ∧ q = r.code ∧ settleAck q e s = s.finish (ackResult s.params r e) := by
  unfold settleAck
  split
  · exact .inl rfl
  · next r n h =>
    split
    · next hq => exact .inr ⟨r, n, h, hq, rfl⟩
    · exact .inl rfl

/-- A READ_RESP leaves the session as it is, or ends the READ it answers (R288, R235). -/
theorem settleReadResp_cases (a : U32) (w : Byte) (c : U16) (v : Bytes) (s : State) :
    settleReadResp a w c v s = s ∨
    ∃ n, s.session = .awaiting (.read a w c) n ∧
      settleReadResp a w c v s = s.finish (.values (elements s.params.fieldEndian w.toNat c.toNat v)) := by
  unfold settleReadResp
  split
  · next a' w' c' n h =>
    split
    · next he =>
      obtain ⟨rfl, rfl, rfl⟩ := he
      exact .inr ⟨n, h, rfl⟩
    · exact .inl rfl
  · exact .inl rfl

/-- A tick does nothing, takes one tick off the timer, or ends the exchange (R287). -/
theorem State.tick_cases (s : State) :
    (s.session = .idle ∧ s.tick = s) ∨
    (∃ r n, s.session = .awaiting r n ∧ n ≤ 1 ∧ s.tick = s.finish .timeout) ∨
    (∃ r n, s.session = .awaiting r n ∧ 1 < n ∧ s.tick = { s with session := .awaiting r (n - 1) }) := by
  unfold State.tick
  cases h : s.session with
  | idle => simp
  | awaiting r n =>
    by_cases hn : n ≤ 1
    · exact .inr (.inl ⟨r, n, rfl, hn, if_pos hn⟩)
    · exact .inr (.inr ⟨r, n, rfl, by omega, if_neg hn⟩)

end Sys2Proof.Machine
end

