-- ==== Sys2Proof/Laws/Crc.lean ====
section
/-! SUPPORT. The CRC unit's loop: it runs byte by byte, and with bit 0 of the polynomial set it loses nothing of the register
(40_crc.md R121, R125). -/

namespace Sys2Proof.Machine

/-- A longer input continues the register (R121). -/
theorem crcRegister_append (c : CrcParams) (r : U16) (x y : Bytes) :
    crcRegister c r (x ++ y) = crcRegister c (crcRegister c r x) y := by
  induction x generalizing r with
  | nil => rfl
  | cons b x ih => exact ih _

/-- One shift step loses nothing where bit 0 of the polynomial is set: the bit that left decides the new bit 0. -/
theorem crcShift_injective {poly : U16} (h : poly.getLsbD 0 = true) {a b : U16} (e : crcShift poly a = crcShift poly b) :
    a = b := by
  have low : ∀ r : U16, (crcShift poly r).getLsbD 0 = r.msb := by
    intro r
    unfold crcShift
    split
    · next hm => simp [h, hm]
    · next hm => simp at hm; simp [hm]
  have hm : a.msb = b.msb := by rw [← low a, ← low b, e]
  apply BitVec.eq_of_getLsbD_eq
  intro i hi
  by_cases h15 : i = 15
  · subst h15
    simpa [BitVec.msb_eq_getLsbD_last] using hm
  · have hb := congrArg (fun r : U16 => r.getLsbD (i + 1)) e
    have hlt : i + 1 < 16 := by omega
    simp only [crcShift, hm] at hb
    split at hb <;> simp at hb <;> simpa [hlt] using hb

theorem crcShifts_injective {poly : U16} (h : poly.getLsbD 0 = true) (n : Nat) {a b : U16}
    (e : crcShifts poly n a = crcShifts poly n b) : a = b := by
  induction n generalizing a b with
  | zero => exact e
  | succ n ih => exact crcShift_injective h (ih e)

/-- The register before a byte is determined by the register after it. -/
theorem crcByte_injective {c : CrcParams} (h : c.poly.getLsbD 0 = true) (x : Byte) {a b : U16}
    (e : crcByte c a x = crcByte c b x) : a = b :=
  (BitVec.xor_left_inj _).1 (crcShifts_injective h 8 e)

/-- The register before a sequence is determined by the register after it. -/
theorem crcRegister_injective {c : CrcParams} (h : c.poly.getLsbD 0 = true) (x : Bytes) {a b : U16}
    (e : crcRegister c a x = crcRegister c b x) : a = b := by
  induction x generalizing a b with
  | nil => exact e
  | cons y x ih => exact crcByte_injective h y (ih e)

end Sys2Proof.Machine
end

