-- ==== Sys2Proof/Laws/Deframer.lean ====
section
/-! SUPPORT. The deframer: its step by state, the fold over a stream, and what it accumulates between two FLAGs
(42_deframer_rx.md R151 to R168). -/

namespace Sys2Proof.Machine

variable {p : Params}

/-! ### One byte -/

theorem Deframer.step_hunt_flag (buf : Bytes) :
    Deframer.step p ⟨.hunt, buf⟩ flagByte = (⟨.inFrame, buf⟩, none) := by simp [Deframer.step]

theorem Deframer.step_hunt_other (buf : Bytes) {b : Byte} (h : b ≠ flagByte) :
    Deframer.step p ⟨.hunt, buf⟩ b = (⟨.hunt, buf⟩, none) := by simp [Deframer.step, h]

theorem Deframer.step_inFrame_flag (buf : Bytes) :
    Deframer.step p ⟨.inFrame, buf⟩ flagByte = Deframer.close p ⟨.inFrame, buf⟩ := by simp [Deframer.step]

theorem Deframer.step_inFrame_esc (buf : Bytes) :
    Deframer.step p ⟨.inFrame, buf⟩ escByte = (⟨.esc, buf⟩, none) := by
  simp [Deframer.step, show escByte ≠ flagByte by decide]

theorem Deframer.step_inFrame_data (buf : Bytes) {b : Byte} (hf : b ≠ flagByte) (he : b ≠ escByte) :
    Deframer.step p ⟨.inFrame, buf⟩ b = Deframer.store p ⟨.inFrame, buf⟩ b := by simp [Deframer.step, hf, he]

theorem Deframer.step_esc_flag (buf : Bytes) :
    Deframer.step p ⟨.esc, buf⟩ flagByte = (.fresh, some .malformed) := by simp [Deframer.step, Deframer.report]

theorem Deframer.step_esc_data (buf : Bytes) {b : Byte} (hf : b ≠ flagByte) :
    Deframer.step p ⟨.esc, buf⟩ b = Deframer.store p ⟨.esc, buf⟩ (b ^^^ escXor) := by simp [Deframer.step, hf]

theorem Deframer.store_full {d : Deframer} (v : Byte) (h : d.rxBuf.length = p.rxCap) :
    Deframer.store p d v = (.fresh, some .frameTooLong) := by simp [Deframer.store, Deframer.rxLen, Deframer.report, h]

theorem Deframer.store_room {d : Deframer} (v : Byte) (h : d.rxBuf.length ≠ p.rxCap) :
    Deframer.store p d v = (⟨.inFrame, d.rxBuf ++ [v]⟩, none) := by simp [Deframer.store, Deframer.rxLen, h]

/-- Every event leaves the deframer as reset does (60_exceptions.md R270). -/
theorem Deframer.step_event {d : Deframer} {b : Byte} {e : RxEvent} (h : (d.step p b).2 = some e) :
    (d.step p b).1 = .fresh := by
  unfold Deframer.step at *
  unfold Deframer.close Deframer.store Deframer.report at *
  split at h <;> split at h <;> simp_all <;> split at h <;> simp_all <;> split at h <;> simp_all

/-- In HUNT no byte raises an event. -/
theorem Deframer.step_hunt_silent {d : Deframer} (h : d.rxState = .hunt) (b : Byte) : (d.step p b).2 = none := by
  unfold Deframer.step
  rw [h]
  simp only
  split <;> rfl

/-- A delivered frame comes from a closing FLAG after two or more bytes, with a matching CRC over what it delivers
(R155, 40_crc.md R124). -/
theorem Deframer.step_frame {d : Deframer} {b : Byte} {data : Bytes} (h : (d.step p b).2 = some (.frame data)) :
    b = flagByte ∧ d.rxState = .inFrame ∧
      ∃ c0 c1, d.rxBuf = data ++ [c0, c1] ∧ crc16 p.crc data = crcOfBytes p [c0, c1] := by
  unfold Deframer.step at h
  split at h
  · split at h <;> simp at h
  · next hs =>
    split at h
    · next hb =>
      unfold Deframer.close Deframer.rxLen Deframer.report at h
      split at h
      · simp at h
      · split at h
        · simp at h
        · next h0 h1 =>
          simp only [Option.some.injEq] at h
          unfold closedFrame at h
          split at h
          · next hcrc =>
            simp only [RxEvent.frame.injEq] at h
            have hlen : (d.rxBuf.drop (d.rxBuf.length - 2)).length = 2 := by rw [List.length_drop]; omega
            match htail : d.rxBuf.drop (d.rxBuf.length - 2), hlen with
            | [c0, c1], _ =>
              refine ⟨hb, hs, c0, c1, ?_, ?_⟩
              · rw [← h, ← htail, List.take_append_drop]
              · rw [← h, ← htail]; exact hcrc
          · simp at h
    · split at h
      · simp at h
      · unfold Deframer.store Deframer.report at h
        split at h <;> simp at h
  · split at h
    · simp [Deframer.report] at h
    · unfold Deframer.store Deframer.report at h
      split at h <;> simp at h

/-- The receive invariant is kept by every byte (10_state.md R25). -/
theorem Deframer.step_inv {d : Deframer} (h : d.Inv p) (b : Byte) : (d.step p b).1.Inv p := by
  obtain ⟨hh, hc⟩ := h
  unfold Deframer.rxLen at hh hc
  have hfresh : Deframer.Inv p .fresh := ⟨fun _ => rfl, Nat.zero_le _⟩
  have hstore : ∀ v, (Deframer.store p d v).1.Inv p := by
    intro v
    by_cases hf : d.rxBuf.length = p.rxCap
    · rw [Deframer.store_full v hf]; exact hfresh
    · rw [Deframer.store_room v hf]
      exact ⟨by simp, by simp [Deframer.rxLen]; omega⟩
  unfold Deframer.step
  split
  · split
    · exact ⟨by simp, hc⟩
    · exact ⟨hh, hc⟩
  · split
    · unfold Deframer.close
      split
      · exact ⟨hh, hc⟩
      · split <;> exact hfresh
    · split
      · exact ⟨by simp, hc⟩
      · exact hstore b
  · split
    · exact hfresh
    · exact hstore _

/-! ### A stream -/

theorem Deframer.run_append (d : Deframer) (pos : Nat) (w v : Bytes) :
    Deframer.run p d pos (w ++ v) =
      ((Deframer.run p (Deframer.run p d pos w).1 (pos + w.length) v).1,
        (Deframer.run p d pos w).2 ++ (Deframer.run p (Deframer.run p d pos w).1 (pos + w.length) v).2) := by
  induction w generalizing d pos with
  | nil => simp [Deframer.run]
  | cons b w ih =>
    have hpos : pos + 1 + w.length = pos + (w.length + 1) := by omega
    simp only [List.cons_append, Deframer.run, List.length_cons]
    rcases hstep : d.step p b with ⟨d', _ | e⟩ <;> simp only [ih, hpos, List.cons_append]

theorem Deframer.run_cons_none {d d' : Deframer} {b : Byte} (h : d.step p b = (d', none)) (pos : Nat) (w : Bytes) :
    Deframer.run p d pos (b :: w) = Deframer.run p d' (pos + 1) w := by
  simp only [Deframer.run, h]

theorem Deframer.run_cons_some {d d' : Deframer} {b : Byte} {e : RxEvent} (h : d.step p b = (d', some e)) (pos : Nat)
    (w : Bytes) : Deframer.run p d pos (b :: w) =
      ((Deframer.run p d' (pos + 1) w).1, (pos, e) :: (Deframer.run p d' (pos + 1) w).2) := by
  simp only [Deframer.run, h]

/-- In HUNT a stream without a FLAG is discarded (R153). -/
theorem Deframer.run_hunt (buf w : Bytes) (pos : Nat) (h : ∀ b ∈ w, b ≠ flagByte) :
    Deframer.run p ⟨.hunt, buf⟩ pos w = (⟨.hunt, buf⟩, []) := by
  induction w generalizing pos with
  | nil => rfl
  | cons b w ih =>
    rw [Deframer.run_cons_none (Deframer.step_hunt_other buf (h b (by simp)))]
    exact ih (pos + 1) (fun c hc => h c (by simp [hc]))

/-- Between an SOF and the next FLAG the deframer accumulates the unstuffed bytes, as long as they fit (R164). -/
theorem Deframer.run_unstuff (buf m t : Bytes) (pos : Nat) (hm : ∀ b ∈ m, b ≠ flagByte) (hu : unstuff m = some t)
    (hfit : buf.length + t.length ≤ p.rxCap) :
    Deframer.run p ⟨.inFrame, buf⟩ pos m = (⟨.inFrame, buf ++ t⟩, []) := by
  induction m using unstuff.induct generalizing buf t pos with
  | case1 => simp only [unstuff, Option.some.injEq] at hu; subst hu; simp [Deframer.run]
  | case2 => simp [unstuff] at hu
  | case3 b hb =>
    simp only [unstuff, if_neg hb, Option.some.injEq] at hu
    subst hu
    have hf : b ≠ flagByte := hm b (by simp)
    rw [Deframer.run_cons_none (d' := ⟨.inFrame, buf ++ [b]⟩)
      ((Deframer.step_inFrame_data buf hf hb).trans (Deframer.store_room _ (by simp at hfit ⊢; omega)))]
    rfl
  | case4 c r ih =>
    rw [unstuff_pair, Option.map_eq_some_iff] at hu
    obtain ⟨u, hu, rfl⟩ := hu
    simp only [List.length_cons] at hfit
    have hc : c ≠ flagByte := hm c (by simp)
    rw [Deframer.run_cons_none (Deframer.step_inFrame_esc buf),
      Deframer.run_cons_none (d' := ⟨.inFrame, buf ++ [c ^^^ escXor]⟩)
        ((Deframer.step_esc_data buf hc).trans (Deframer.store_room _ (by simp only; omega)))]
    rw [ih (buf ++ [c ^^^ escXor]) u (pos + 1 + 1) (fun d hd => hm d (by simp [hd])) hu (by simp; omega)]
    simp
  | case5 b c r hb ih =>
    rw [unstuff_literal hb, Option.map_eq_some_iff] at hu
    obtain ⟨u, hu, rfl⟩ := hu
    simp only [List.length_cons] at hfit
    have hf : b ≠ flagByte := hm b (by simp)
    rw [Deframer.run_cons_none (d' := ⟨.inFrame, buf ++ [b]⟩)
      ((Deframer.step_inFrame_data buf hf hb).trans (Deframer.store_room _ (by simp only; omega)))]
    rw [ih (buf ++ [b]) u (pos + 1) (fun d hd => hm d (by simp [hd])) hu (by simp; omega)]
    simp

/-- The FLAG that closes a frame of `data` and its CRC delivers it (R155). -/
theorem Deframer.close_matching (data : Bytes) :
    Deframer.close p ⟨.inFrame, data ++ crcBytes p (crc16 p.crc data)⟩ = (.fresh, some (.frame data)) := by
  have hlen : (data ++ crcBytes p (crc16 p.crc data)).length = data.length + 2 := by simp
  unfold Deframer.close Deframer.rxLen closedFrame Deframer.report
  simp only [hlen]
  rw [if_neg (by omega), if_neg (by omega), show data.length + 2 - 2 = data.length by omega]
  simp

end Sys2Proof.Machine
end

