-- ==== Sys2Proof/Laws/Elements.lean ====
section
/-! SUPPORT. Elements of the register space: what a read gives after a write, and the element lists of READ, WRITE, SETCLR and
READ_RESP (30_encoding.md R93; 45_command_contract.md R232 to R235). -/

namespace Sys2Proof.Machine

theorem memRead_lt (m : Memory) (a n : Nat) : memRead m a n < 256 ^ n := by
  have := fromLE_lt (Memory.readBytes m a n)
  rwa [Memory.readBytes_length] at this

/-- Bytes stored below 2^32 read back. -/
theorem Memory.readBytes_writeBytes {m : Memory} (h : Memory.wf m) {a : Nat} {b : Bytes} (hb : a + b.length ≤ 2 ^ 32) :
    Memory.readBytes (Memory.writeBytes m a b) a b.length = b := by
  have tail : ∀ k, k ≤ b.length →
      Memory.readBytes (Memory.writeBytes m a b) (a + (b.length - k)) k = b.drop (b.length - k) := by
    intro k hk
    induction k with
    | zero => simp [Memory.readBytes]
    | succ k ih =>
      have e : b.length - (k + 1) + 1 = b.length - k := by omega
      simp only [Memory.readBytes]
      rw [targetAddr_of_lt (by omega), Memory.read_writeBytes h hb, if_pos (by omega),
        show a + (b.length - (k + 1)) + 1 = a + (b.length - k) by omega, ih (by omega),
        show a + (b.length - (k + 1)) - a = b.length - (k + 1) by omega, List.getD_eq_getElem _ _ (by omega), ← e]
      exact (List.drop_eq_getElem_cons (by omega)).symm
  simpa using tail b.length (le_refl _)

/-- Read after write at the same place, below 2^32. -/
theorem memRead_memWrite {m : Memory} (h : Memory.wf m) {a n v : Nat} (ha : a + n ≤ 2 ^ 32) :
    memRead (memWrite m a n v) a n = v % 256 ^ n := by
  have hb := Memory.readBytes_writeBytes h (b := leBytes n v) (by simpa using ha)
  rw [leBytes_length] at hb
  unfold memRead memWrite
  rw [hb, fromLE_leBytes]

/-- A write below 2^32 leaves every other byte alone. -/
theorem read_memWrite {m : Memory} (h : Memory.wf m) {a n v : Nat} (ha : a + n ≤ 2 ^ 32) {x : Nat}
    (hx : ¬ (a ≤ x ∧ x < a + n)) : Memory.read (memWrite m a n v) x = Memory.read m x := by
  unfold memWrite
  rw [Memory.read_writeBytes h (by simpa using ha), leBytes_length, if_neg hx]

/-- A read below 2^32 depends on its own bytes only. -/
theorem memRead_congr {m m' : Memory} {a n : Nat} (ha : a + n ≤ 2 ^ 32)
    (h : ∀ x, a ≤ x → x < a + n → Memory.read m x = Memory.read m' x) : memRead m a n = memRead m' a n := by
  unfold memRead
  congr 1
  induction n generalizing a with
  | zero => rfl
  | succ n ih =>
    simp only [Memory.readBytes]
    rw [targetAddr_of_lt (by omega), h a (by omega) (by omega),
      ih (by omega) (fun x h1 h2 => h x (by omega) (by omega))]

@[simp] theorem readElements_length (o : ByteOrder) (m : Memory) (a w n : Nat) :
    (readElements o m a w n).length = n * w := by
  induction n generalizing a with
  | zero => simp [readElements]
  | succ n ih => simp [readElements, ih, Nat.succ_mul]; omega

/-- Element `k` of what the slave reads (R232, R237). -/
theorem readElements_get (o : ByteOrder) (m : Memory) (a w n k : Nat) (h : k < n) :
    ofField o (((readElements o m a w n).drop (k * w)).take w) = memRead m (a + k * w) w := by
  induction n generalizing a k with
  | zero => omega
  | succ n ih =>
    cases k with
    | zero =>
      simp only [readElements, Nat.zero_mul, List.drop_zero, Nat.add_zero]
      rw [List.take_append_of_le_length (by simp), List.take_of_length_le (by simp), ofField_toField,
        Nat.mod_eq_of_lt (memRead_lt _ _ _)]
    | succ k =>
      simp only [readElements]
      have e : ∀ r : Bytes, (toField o w (memRead m a w) ++ r).drop (w + k * w) = r.drop (k * w) := by
        intro r
        rw [← List.drop_drop, List.drop_left' (by simp)]
      rw [show (k + 1) * w = w + k * w by rw [Nat.succ_mul]; omega, e, ih _ _ (by omega)]
      congr 1
      omega

/-- Everything the slave's writes do, below 2^32 (R233, R237): each element reads back, every other byte is as before. -/
theorem writeElements_spec (o : ByteOrder) {m : Memory} (h : Memory.wf m) (a w : Nat) (v : Bytes) (n : Nat)
    (ha : a + n * w ≤ 2 ^ 32) (hv : v.length = n * w) :
    (∀ x, ¬ (a ≤ x ∧ x < a + n * w) → Memory.read (writeElements o m a w v n) x = Memory.read m x) ∧
    (∀ k, k < n →
      memRead (writeElements o m a w v n) (a + k * w) w = ofField o ((v.drop (k * w)).take w)) := by
  induction n generalizing m a v with
  | zero => simp [writeElements]
  | succ n ih =>
    rw [Nat.succ_mul] at ha hv
    simp only [writeElements, Nat.succ_mul]
    obtain ⟨hold, hnew⟩ := ih (memWrite_wf h a w (ofField o (v.take w))) (a + w) (v.drop w) (by omega) (by simp; omega)
    constructor
    · intro x hx
      rw [hold x (by omega), read_memWrite h (by omega) (by omega)]
    · intro k hk
      cases k with
      | zero =>
        simp only [Nat.zero_mul, Nat.add_zero, List.drop_zero]
        rw [memRead_congr (m' := memWrite m a w (ofField o (v.take w))) (by omega) (fun x h1 h2 => hold x (by omega)),
          memRead_memWrite h (by omega)]
        apply Nat.mod_eq_of_lt
        have := ofField_lt o (v.take w)
        rwa [List.length_take, Nat.min_eq_left (by omega)] at this
      | succ k =>
        rw [Nat.succ_mul, show a + (k * w + w) = a + w + k * w by omega, hnew k (by omega), List.drop_drop]
        congr 3
        omega

/-- SETCLR's value bit by bit (R234). -/
theorem setclrValue_testBit {w old mask val j : Nat} (hj : j < 8 * w) :
    (setclrValue w old mask val).testBit j = if mask.testBit j then val.testBit j else old.testBit j := by
  unfold setclrValue
  rw [BitVec.testBit_toNat]
  simp only [BitVec.getLsbD_or, BitVec.getLsbD_and, BitVec.getLsbD_not, BitVec.getLsbD_ofNat, hj]
  cases mask.testBit j <;> cases val.testBit j <;> simp

theorem setclrValue_lt (w old mask val : Nat) : setclrValue w old mask val < 256 ^ w := by
  have := ((BitVec.ofNat (8 * w) old &&& ~~~(BitVec.ofNat (8 * w) mask))
    ||| (BitVec.ofNat (8 * w) val &&& BitVec.ofNat (8 * w) mask)).isLt
  rw [Nat.pow_mul] at this
  exact this

/-- The integers of a `values` field (R93). -/
theorem elements_spec (o : ByteOrder) (w n : Nat) (v : Bytes) : (elements o w n v).length = n ∧
    ∀ j, j < n → (elements o w n v)[j]? = some (ofField o ((v.drop (j * w)).take w)) := by
  induction n generalizing v with
  | zero => simp [elements]
  | succ n ih =>
    obtain ⟨hlen, hget⟩ := ih (v.drop w)
    refine ⟨by simp [elements, hlen], ?_⟩
    intro j hj
    cases j with
    | zero => simp [elements]
    | succ j =>
      simp only [elements, List.getElem?_cons_succ]
      rw [hget j (by omega), List.drop_drop, Nat.succ_mul, Nat.add_comm]

end Sys2Proof.Machine
end

