-- ==== Sys2Proof/Laws/Step.lean ====
section
/-! SUPPORT. What a step can do, said once: what `fetch` takes, and the effects of an instruction or a transaction. Every
whole-machine property is proved from these. -/

namespace Sys2Proof.Machine

/-- The state after `fetch` has taken what the step runs: the inputs moved on, the event of the step before gone (R306), a Write
of FlashUpdate perhaps taken. -/
structure Taken (s u : State) : Prop where
  params : u.params = s.params
  rx : u.rx = s.rx
  rxEvent : u.rxEvent = none
  txQueue : u.txQueue = s.txQueue
  linkTx : u.linkTx = s.linkTx
  result : u.result = s.result
  session : u.session = s.session
  flash : u.flash = s.flash ∨ ∃ c, s.flash = c :: u.flash
  mem : u.mem = s.mem
  targetAnswer : u.targetAnswer = s.targetAnswer

theorem Taken.advance (s : State) (n : Nat) : Taken s (s.advance n) :=
  ⟨rfl, rfl, rfl, rfl, rfl, rfl, rfl, .inl rfl, rfl, rfl⟩

/-- The state a fetch leaves to what it runs. -/
def Fetched.state : Fetched → State
  | .instr _ t => t
  | .act _ t => t

/-- A link symbol the decoder gives is well formed: no pair ends in a FLAG (R99, R160). -/
theorem decodeSymbol_pair {x rest : Bytes} {b : Byte} (h : decodeSymbol x = .ok (.escOther b, rest)) : b ≠ 0x7E := by
  unfold decodeSymbol at h
  split at h
  · simp at h
  · split at h
    · simp at h
    · split at h
      · split at h
        · simp at h
        · split at h
          · simp at h
          · next hc =>
            split at h
            · simp at h
            · split at h
              · simp at h
              · simp only [Except.ok.injEq, Prod.mk.injEq, Instr.escOther.injEq] at h
                exact h.1 ▸ hc
      · simp at h

theorem fetch_taken (s : State) : Taken s (fetch s).state := by
  have op : ∀ i, Taken s (fetchOp i (s.advance 1)).state := by
    intro i
    unfold fetchOp
    split <;> exact Taken.advance s 1
  have event : ∀ u e, Taken s (fetchEvent u e (s.advance 1)).state := by
    intro u e
    unfold fetchEvent
    split
    · split <;> exact Taken.advance s 1
    · exact Taken.advance s 1
    · exact Taken.advance s 1
  unfold fetch
  split
  case h_1 => exact Taken.advance s 0
  case h_2 =>
    unfold fetchLink
    split <;> exact Taken.advance s _
  case h_11 =>
    unfold fetchChunk
    split
    · next a w c v rest hf => exact ⟨rfl, rfl, rfl, rfl, rfl, rfl, rfl, .inr ⟨_, hf⟩, rfl, rfl⟩
    · exact Taken.advance s 1
  all_goals first
    | exact op _
    | exact event _ _
    | exact Taken.advance s 1

/-- What running an instruction or a transaction can do to the state. -/
inductive Effect (s : State) : State → Prop
  /-- nothing -/
  | same : Effect s s
  /-- one link byte -/
  | byte (b : Byte) : Effect s (s.takeByte b)
  /-- an escape pair -/
  | pair (c : Byte) (h : c ≠ 0x7E) : Effect s (s.takePair 0x7D c)
  /-- one byte to the link -/
  | emit : Effect s s.txEmit
  /-- a call is answered and nothing is sent -/
  | answer (r : Result) : Effect s (s.answer r)
  /-- a frame is queued, with or without a change of the register space before it -/
  | send (m : Memory) (x : Bytes) (r : Result) (hm : Memory.wf s.mem → Memory.wf m) (hq : s.txQueue = [])
      (hx : x.length ≤ s.params.maxCmdLen) : Effect s (((s.setMem m).load (frameOf s.params x)).answer r)
  /-- the register space changes although the answer could not be sent (an inadmissible build) -/
  | change (m : Memory) (r : Option Result) (hm : Memory.wf s.mem → Memory.wf m) :
      Effect s { s.setMem m with result := r }
  /-- a session request is sent -/
  | opened (c : Command) (hs : s.session = .idle) (hr : isRequest c = true) (hv : validate s.params c = none)
      (hq : s.txQueue = []) (hx : (layout s.params c).length ≤ s.params.maxCmdLen) :
      Effect s ((s.load (frameOf s.params (layout s.params c))).await c)
  /-- an exchange ends, or does not begin -/
  | finished (r : Result) : Effect s (s.finish r)
  /-- the timer runs on -/
  | ticked (c : Command) (n : Nat) (h : s.session = .awaiting c n) :
      Effect s { s with session := .awaiting c (n - 1) }
  /-- FlashUpdate begins -/
  | flash (cs : List Command) (h : ∀ c ∈ cs, isChunk c = true) (hs : s.session = .idle) :
      Effect s { s with flash := cs, result := none }
  | flush : Effect s s.rxFlush
  | reset : Effect s s.resetBlock
  | target (e : Option TargetError) : Effect s { s with targetAnswer := e }

theorem transmit_effect {c : Command} {s t : State} (h : transmit c s = .next t) : Effect s t := by
  obtain ⟨r, rfl | ⟨x, hq, hx, rfl⟩⟩ := transmit_next h
  · exact .answer r
  · exact .send s.mem x r id hq hx

theorem transmit_setMem_effect {c : Command} {s t : State} {m : Memory} (hm : Memory.wf s.mem → Memory.wf m)
    (h : transmit c (s.setMem m) = .next t) : Effect s t := by
  obtain ⟨r, rfl | ⟨x, hq, hx, rfl⟩⟩ := transmit_next h
  · exact .change m (some r) hm
  · exact .send m x r hm hq hx

theorem request_effect {c : Command} {s t : State} (hr : isRequest c = true) (h : request c s = .next t) :
    Effect s t := by
  rcases request_cases c s with ⟨-, he⟩ | ⟨-, -, he⟩ | ⟨-, e, he⟩ | ⟨hs, hv, hq, hx, he⟩ <;> rw [he] at h
  · simp at h
  · simp at h
  · simp only [Host.Outcome.next.injEq] at h; exact h ▸ .finished _
  · simp only [Host.Outcome.next.injEq] at h; exact h ▸ .opened c hs hr hv hq hx

/-- Serving a request: an answer, with the register space changed as the target's access changed it. -/
theorem serve_effect {c : Command} {f : State → State × Command} {s t : State}
    (hf : ∃ m, (Memory.wf s.mem → Memory.wf m) ∧ (f s).1 = s.setMem m) (h : serve c f s = .next t) : Effect s t := by
  obtain ⟨m, hm, hfm⟩ := hf
  rcases serve_cases c f s with ⟨e, -, he⟩ | ⟨-, he⟩ <;> rw [he] at h
  · exact transmit_effect h
  · rw [hfm] at h; exact transmit_setMem_effect hm h

theorem targetAccess_mem {code : Byte} {f : State → State × Command} {s : State}
    (hf : ∃ m, (Memory.wf s.mem → Memory.wf m) ∧ (f s).1 = s.setMem m) :
    ∃ m, (Memory.wf s.mem → Memory.wf m) ∧ (targetAccess code f s).1 = s.setMem m := by
  rcases targetAccess_cases code f s with ⟨e, -, he⟩ | ⟨-, he⟩
  · exact ⟨s.mem, id, by rw [he]; rfl⟩
  · rw [he]; exact hf

/-- Everything an instruction can do. -/
theorem exec_effect {i : Instr} {s t : State} (hi : ∀ b, i = .escOther b → b ≠ 0x7E) (h : exec i s = .next t) :
    Effect s t := by
  cases i with
  | echo u d =>
    match u with
    | .transmit => exact transmit_effect h
    | .request => exact request_effect rfl h
    | .receive .serve => exact serve_effect ⟨s.mem, id, rfl⟩ h
    | .receive .settle => simp only [exec, execEcho, Host.Outcome.next.injEq] at h; exact h ▸ .same
  | read u a w c =>
    match u with
    | .transmit => exact transmit_effect h
    | .request => exact request_effect rfl h
    | .receive .serve => exact serve_effect (targetAccess_mem ⟨s.mem, id, rfl⟩) h
    | .receive .settle => simp only [exec, execRead, Host.Outcome.next.injEq] at h; exact h ▸ .same
  | write u a w c v =>
    match u with
    | .transmit => exact transmit_effect h
    | .request => exact request_effect rfl h
    | .receive .serve =>
      exact serve_effect (targetAccess_mem ⟨_, fun hm => writeElements_wf _ hm _ _ _ _, rfl⟩) h
    | .receive .settle => simp only [exec, execWrite, Host.Outcome.next.injEq] at h; exact h ▸ .same
  | setclr u a w m v =>
    match u with
    | .transmit => exact transmit_effect h
    | .request => exact request_effect rfl h
    | .receive .serve => exact serve_effect (targetAccess_mem ⟨_, fun hm => memWrite_wf hm _ _ _, rfl⟩) h
    | .receive .settle => simp only [exec, execSetclr, Host.Outcome.next.injEq] at h; exact h ▸ .same
  | readResp u a w c v =>
    match u with
    | .transmit => exact transmit_effect (c := .readResp a w c v) h
    | .receive .serve => exact transmit_effect (c := ackOf s.params readRespCode .badCmd) h
    | .receive .settle =>
      simp only [exec, execReadResp, Host.Outcome.next.injEq] at h
      rcases settleReadResp_cases a w c v s with he | ⟨n, -, he⟩ <;> rw [he] at h <;> subst h
      · exact .same
      · exact .finished _
  | ack u q e =>
    match u with
    | .transmit =>
      rcases execAck_transmit_cases q e s with ⟨-, he⟩ | ⟨-, he⟩ <;> simp only [exec, he] at h
      · exact transmit_effect h
      · simp at h
    | .receive .serve => exact transmit_effect (c := ackOf s.params ackCode .badCmd) h
    | .receive .settle =>
      simp only [exec, execAck, Host.Outcome.next.injEq] at h
      rcases settleAck_cases q e s with he | ⟨r, n, -, -, he⟩ <;> rw [he] at h <;> subst h
      · exact .same
      · exact .finished _
  | reservedCmd u b pl =>
    match u with
    | .serve => exact transmit_effect (c := ackOf s.params b .badCmd) h
    | .settle => simp only [exec, execReservedCmd, Host.Outcome.next.injEq] at h; exact h ▸ .same
  | flag => simp only [exec, execFlag, Host.Outcome.next.injEq] at h; exact h ▸ .byte _
  | escFlag => simp only [exec, execEscFlag, Host.Outcome.next.injEq] at h; exact h ▸ .pair _ (by decide)
  | escEsc => simp only [exec, execEscEsc, Host.Outcome.next.injEq] at h; exact h ▸ .pair _ (by decide)
  | escOther b => simp only [exec, execEscOther, Host.Outcome.next.injEq] at h; exact h ▸ .pair _ (hi b rfl)
  | literal b => simp only [exec, execLiteral, Host.Outcome.next.injEq] at h; exact h ▸ .byte _

theorem flashChunks_isChunk (off : Nat) (src : Bytes) (n : Nat) : ∀ c ∈ flashChunks off src n, isChunk c = true := by
  induction n generalizing off src with
  | zero => simp [flashChunks]
  | succ n ih =>
    intro c hc
    rcases List.mem_cons.1 hc with rfl | hc
    · rfl
    · exact ih _ _ c hc

/-- Everything a transaction can do. -/
theorem transact_effect {a : Act} {s t : State} (h : transact a s = .next t) : Effect s t := by
  cases a with
  | linkByte b => simp only [transact, Host.Outcome.next.injEq] at h; exact h ▸ .byte b
  | linkReady => simp only [transact, Host.Outcome.next.injEq] at h; exact h ▸ .emit
  | txStart x =>
    simp only [transact] at h
    rcases s.txStart_cases x with ⟨-, he⟩ | ⟨-, -, he⟩ | ⟨hq, hx, he⟩ <;> rw [he] at h
    · simp at h
    · simp only [Host.Outcome.next.injEq] at h; exact h ▸ .answer _
    · simp only [Host.Outcome.next.injEq] at h; exact h ▸ .send s.mem x _ id hq hx
  | flashUpdate off len src =>
    simp only [transact, State.flashBegin] at h
    split at h
    · simp at h
    · next hs =>
      split at h
      · simp at h
      · split at h
        · simp only [Host.Outcome.next.injEq] at h; exact h ▸ .answer _
        · simp only [Host.Outcome.next.injEq] at h
          exact h ▸ .flash _ (flashChunks_isChunk _ _ _) (by by_contra hn; exact hs (.inl hn))
  | rejected u x e =>
    match u with
    | .serve => exact transmit_effect (c := ackOf s.params (x.headD 0x00) e.code) h
    | .settle => simp only [transact, rejected, Host.Outcome.next.injEq] at h; exact h ▸ .same
  | blocked => simp [transact] at h
  | tick =>
    simp only [transact, Host.Outcome.next.injEq] at h
    rcases s.tick_cases with ⟨-, he⟩ | ⟨r, n, -, -, he⟩ | ⟨r, n, hs, -, he⟩ <;> rw [he] at h <;> subst h
    · exact .same
    · exact .finished _
    · exact .ticked r n hs
  | rxFlush => simp only [transact, Host.Outcome.next.injEq] at h; exact h ▸ .flush
  | reset => simp only [transact, Host.Outcome.next.injEq] at h; exact h ▸ .reset
  | targetAnswer e => simp only [transact, Host.Outcome.next.injEq] at h; exact h ▸ .target e
  | targetChange x b =>
    simp only [transact, Host.Outcome.next.injEq] at h
    exact h ▸ .change _ s.result (fun hm => Memory.write_wf hm x.isLt b)
  | nothing => simp only [transact, Host.Outcome.next.injEq] at h; exact h ▸ .same
  | idle => simp only [transact, Host.Outcome.next.injEq] at h; exact h ▸ .emit

/-- A fetched pair never ends in a FLAG. -/
theorem fetch_pair {s u : State} {b : Byte} (h : fetch s = .instr (.escOther b) u) : b ≠ 0x7E := by
  have noCommand : ∀ c : Command, c.transmitted ≠ .escOther b := fun c => by cases c <;> simp [Command.transmitted]
  have noFrame : ∀ (p : Params) (u : RecvUse) (x : Bytes) (i : Instr), decodeFrame p u x = .ok i → i ≠ .escOther b := by
    intro p u x i hi
    unfold decodeFrame at hi
    split at hi
    · next c _ => simp only [Except.ok.injEq] at hi; subst hi; cases c <;> simp [Command.received]
    · simp only [Except.ok.injEq] at hi; subst hi; simp
    · simp at hi
  unfold fetch at h
  split at h
  case h_2 =>
    unfold fetchLink at h
    split at h
    · next i rest hd =>
      simp only [Fetched.instr.injEq] at h
      rw [h.1] at hd
      exact decodeSymbol_pair hd
    · simp at h
  case h_5 => simp only [Fetched.instr.injEq] at h; exact absurd h.1 (noCommand _)
  case h_11 =>
    unfold fetchChunk at h
    split at h <;> simp at h
  case h_12 =>
    unfold fetchEvent at h
    split at h
    · split at h
      · next hd => simp only [Fetched.instr.injEq] at h; exact absurd h.1 (noFrame _ _ _ _ hd)
      · simp at h
    · simp at h
    · simp at h
  case h_13 =>
    unfold fetchEvent at h
    split at h
    · split at h
      · next hd => simp only [Fetched.instr.injEq] at h; exact absurd h.1 (noFrame _ _ _ _ hd)
      · simp at h
    · simp at h
    · simp at h
  all_goals first
    | simp at h
    | (unfold fetchOp at h; split at h <;> simp at h)

/-- The inversion of a step: what is taken from the ports, then one effect. -/
theorem step_effect {s t : State} (h : step s = .next t) : ∃ u, Taken s u ∧ Effect u t := by
  have ht := fetch_taken s
  unfold step at h
  cases hf : fetch s with
  | instr i u =>
    rw [hf] at h ht
    exact ⟨u, ht, exec_effect (fun b hb => fetch_pair (hb ▸ hf)) h⟩
  | act a u =>
    rw [hf] at h ht
    exact ⟨u, ht, transact_effect h⟩

end Sys2Proof.Machine
end

