-- ==== Sys2Proof/Laws/Inversion.lean ====
section
/-! SUPPORT. Where an instruction can be fetched from, and which parts of the state an instruction or a transaction may change:
the receive side, the register space and the session. Whole-machine properties about one part are proved from these. -/

namespace Sys2Proof.Machine

/-! ### Fetching -/

/-- The window begins with the first link byte. -/
theorem linkWindow_cons (b : Byte) (r : List Input) : ∃ w, linkWindow (.linkByte b :: r) = b :: w := by
  generalize h : Input.linkByte b :: r = l
  unfold linkWindow
  split
  · simp at h; exact ⟨_, by rw [h.1]⟩
  · simp at h; exact ⟨_, by rw [h.1]⟩
  · next h1 h2 => exact absurd h.symm (h2 _ _)

/-- What the first byte says of the symbol (R82). -/
theorem decodeSymbol_head {b : Byte} {x rest : Bytes} {i : Instr} (h : decodeSymbol (b :: x) = .ok (i, rest)) :
    (i = .flag → b = 0x7E) ∧ (∀ c, i = .literal c → c = b ∧ b ≠ 0x7E) ∧ i.port = .link := by
  simp only [decodeSymbol] at h
  split at h
  · next hb => simp at h; refine ⟨fun _ => hb, ?_, ?_⟩ <;> simp [← h.1, Instr.port]
  · split at h
    · split at h
      · simp at h
      · split at h
        · simp at h
        · split at h
          · simp at h; simp [← h.1, Instr.port]
          · split at h
            · simp at h; simp [← h.1, Instr.port]
            · simp at h; simp [← h.1, Instr.port]
    · next hb _ =>
      simp only [Except.ok.injEq, Prod.mk.injEq] at h
      refine ⟨by simp [← h.1], ?_, by simp [← h.1, Instr.port]⟩
      rintro c rfl
      simp only [Instr.literal.injEq] at h
      exact ⟨h.1.symm, hb⟩

/-- A received frame is a command that deserialised, or a reserved `cmd` (R200, R202). -/
theorem decodeFrame_cases {p : Params} {u : RecvUse} {x : Bytes} {i : Instr} (h : decodeFrame p u x = .ok i) :
    (∃ c, deserialize p x = .ok c ∧ i = c.received u) ∨ ∃ b pl, i = .reservedCmd u b pl := by
  unfold decodeFrame at h
  split at h
  · next c hc => simp only [Except.ok.injEq] at h; exact .inl ⟨c, hc, h.symm⟩
  · simp only [Except.ok.injEq] at h; exact .inr ⟨_, _, h.symm⟩
  · simp at h

theorem decodeFrame_layout {p : Params} {c : Command} {u : RecvUse} (h : c.transmitted.wellFormed p = true) :
    decodeFrame p u (layout p c) = .ok (c.received u) := by
  simp [decodeFrame, deserialize_layout h]

@[simp] theorem Command.transmitted_port (c : Command) : c.transmitted.port = .transmit := by cases c <;> rfl

theorem Command.requested_port {c : Command} {i : Instr} (h : c.requested = some i) : i.port = .request := by
  cases c <;> simp [Command.requested] at h <;> subst h <;> rfl

theorem decodeFrame_port {p : Params} {u : RecvUse} {x : Bytes} {i : Instr} (h : decodeFrame p u x = .ok i) :
    i.port = .frame u := by
  rcases decodeFrame_cases h with ⟨c, -, rfl⟩ | ⟨b, pl, rfl⟩
  · cases c <;> rfl
  · rfl

/-- The input that takes a received frame. -/
def takeInput : RecvUse → Input
  | .serve => .serve
  | .settle => .settle

/-- Where an instruction is fetched from: the link, the host's send, an operation or FlashUpdate, the event port. -/
theorem fetch_instr {s u : State} {i : Instr} (h : fetch s = .instr i u) :
    (∃ b r l, s.inputs = .linkByte b :: r ∧ decodeSymbol (linkWindow s.inputs) = .ok (i, l)) ∨
    (∃ c : Command, i = c.transmitted ∧ s.inputs.head? = some (.call c)) ∨
    (∃ c : Command, c.requested = some i) ∨
    (∃ v x, s.rxEvent = some (.frame x) ∧ decodeFrame s.params v x = .ok i ∧ s.inputs.head? = some (takeInput v)) := by
  have op : ∀ {t j}, fetchOp j t = .instr i u → i = j := by
    intro t j hj
    unfold fetchOp at hj
    split at hj <;> simp at hj
    exact hj.1.symm
  have event : ∀ v, s.inputs.head? = some (takeInput v) → fetchEvent v s.rxEvent (s.advance 1) = .instr i u →
      ∃ v x, s.rxEvent = some (.frame x) ∧ decodeFrame s.params v x = .ok i ∧ s.inputs.head? = some (takeInput v) := by
    intro v hi hv
    unfold fetchEvent at hv
    split at hv
    · next x he =>
      split at hv
      · next j hd =>
        simp only [Fetched.instr.injEq] at hv
        exact ⟨v, x, he, hv.1 ▸ hd, hi⟩
      · simp at hv
    · simp at hv
    · simp at hv
  unfold fetch at h
  split at h
  case h_2 b r hi =>
    unfold fetchLink at h
    split at h
    · next j l hd =>
      simp only [Fetched.instr.injEq] at h
      exact .inl ⟨b, r, l, hi, h.1 ▸ hd⟩
    · simp at h
  case h_5 c r hi => simp only [Fetched.instr.injEq] at h; exact .inr (.inl ⟨c, h.1.symm, by rw [hi]; rfl⟩)
  case h_6 d r hi => exact .inr (.inr (.inl ⟨.echo d, by rw [op h]; rfl⟩))
  case h_7 a w c r hi => exact .inr (.inr (.inl ⟨.read a w c, by rw [op h]; rfl⟩))
  case h_8 a w c v r hi => exact .inr (.inr (.inl ⟨.write a w c v, by rw [op h]; rfl⟩))
  case h_9 a w m v r hi => exact .inr (.inr (.inl ⟨.setclr a w m v, by rw [op h]; rfl⟩))
  case h_11 =>
    unfold fetchChunk at h
    split at h
    · next a w c v _ _ =>
      simp only [Fetched.instr.injEq] at h
      exact .inr (.inr (.inl ⟨.write a w c v, by rw [← h.1]; rfl⟩))
    · simp at h
  case h_12 r hi => exact .inr (.inr (.inr (event .serve (by simp [hi, takeInput]) h)))
  case h_13 r hi => exact .inr (.inr (.inr (event .settle (by simp [hi, takeInput]) h)))
  all_goals simp at h

/-- A link symbol comes from the link. -/
theorem fetch_symbol {s u : State} {i : Instr} (h : fetch s = .instr i u) (hp : i.port = .link) :
    ∃ b r l, s.inputs = .linkByte b :: r ∧ decodeSymbol (linkWindow s.inputs) = .ok (i, l) := by
  rcases fetch_instr h with h | ⟨c, rfl, -⟩ | ⟨c, hc⟩ | ⟨v, x, -, hd, -⟩
  · exact h
  · rw [Command.transmitted_port] at hp; cases hp
  · rw [Command.requested_port hc] at hp; cases hp
  · rw [decodeFrame_port hd] at hp; cases hp

/-- A transaction with data of its own comes from the input that carries it. -/
theorem fetch_act {s u : State} {a : Act} (h : fetch s = .act a u) :
    (∀ b, a = .linkByte b → s.inputs.head? = some (.linkByte b)) ∧
    (a = .tick → s.inputs.head? = some .tick) ∧
    (a = .reset → s.inputs.head? = some .reset) ∧
    (∀ x b, a = .targetChange x b → s.inputs.head? = some (.targetChange x b)) ∧
    (∀ off len src, a = .flashUpdate off len src →
      s.inputs.head? = some (.flashUpdate off len src) ∧ u.flash = s.flash) ∧
    (a = .blocked → s.flash ≠ []) := by
  have event : ∀ v e t, fetchEvent v e t = .act a u → a = .nothing ∨ ∃ v x e, a = .rejected v x e := by
    intro v e t hv
    unfold fetchEvent at hv
    split at hv
    · split at hv <;> simp at hv
      exact .inr ⟨_, _, _, hv.1.symm⟩
    · simp at hv; exact .inl hv.1.symm
    · simp at hv; exact .inl hv.1.symm
  unfold fetch at h
  split at h
  case h_2 b r hi => unfold fetchLink at h; split at h <;> simp at h; simp [hi, ← h.1]
  case h_10 => simp at h; rename_i hi; simp [hi, ← h.1, ← h.2]
  case h_11 => unfold fetchChunk at h; split at h <;> simp at h; simp [← h.1]
  case h_12 => rcases event _ _ _ h with rfl | ⟨v, x, e, rfl⟩ <;> simp
  case h_13 => rcases event _ _ _ h with rfl | ⟨v, x, e, rfl⟩ <;> simp
  case h_6 => unfold fetchOp at h; split at h <;> simp at h; next hf => simp [← h.1]; exact hf
  case h_7 => unfold fetchOp at h; split at h <;> simp at h; next hf => simp [← h.1]; exact hf
  case h_8 => unfold fetchOp at h; split at h <;> simp at h; next hf => simp [← h.1]; exact hf
  case h_9 => unfold fetchOp at h; split at h <;> simp at h; next hf => simp [← h.1]; exact hf
  all_goals first
    | (simp at h; done)
    | (simp at h; next hi => simp [hi, ← h.1])

/-! ### What the shared operations leave alone -/

/-- The receive side and the parameters are as they were. -/
structure KeepsRx (s t : State) : Prop where
  rx : t.rx = s.rx
  rxEvent : t.rxEvent = s.rxEvent
  params : t.params = s.params

theorem KeepsRx.refl (s : State) : KeepsRx s s := ⟨rfl, rfl, rfl⟩

theorem State.finish_cases (s : State) (r : Result) :
    s.finish r = { s with session := .idle, result := none } ∨
    s.finish r = { s with session := .idle, result := some r, flash := [] } := by
  unfold State.finish
  split
  · exact .inl rfl
  · exact .inr rfl

theorem State.txEmit_cases (s : State) : s.txEmit = s ∨
    ∃ b r, s.txQueue = b :: r ∧ s.txEmit = { s with txQueue := r, linkTx := s.linkTx ++ [b] } := by
  unfold State.txEmit
  split
  · exact .inl rfl
  · next b r h => exact .inr ⟨b, r, h, rfl⟩

theorem transmit_keeps {c : Command} {s t : State} (h : transmit c s = .next t) :
    KeepsRx s t ∧ t.mem = s.mem ∧ t.session = s.session := by
  obtain ⟨r, rfl | ⟨x, hq, hx, rfl⟩⟩ := transmit_next h <;> exact ⟨⟨rfl, rfl, rfl⟩, rfl, rfl⟩

theorem State.finish_keeps (s : State) (r : Result) : KeepsRx s (s.finish r) ∧ (s.finish r).mem = s.mem := by
  rcases s.finish_cases r with e | e <;> rw [e] <;> exact ⟨⟨rfl, rfl, rfl⟩, rfl⟩

theorem request_keeps {c : Command} {s t : State} (h : request c s = .next t) :
    KeepsRx s t ∧ t.mem = s.mem ∧ s.session = .idle := by
  rcases request_cases c s with ⟨-, he⟩ | ⟨-, -, he⟩ | ⟨hs, e, he⟩ | ⟨hs, -, -, -, he⟩ <;> rw [he] at h
  · simp at h
  · simp at h
  · simp only [Host.Outcome.next.injEq] at h
    subst h
    exact ⟨(s.finish_keeps _).1, (s.finish_keeps _).2, hs⟩
  · simp only [Host.Outcome.next.injEq] at h
    subst h
    exact ⟨⟨rfl, rfl, rfl⟩, rfl, hs⟩

theorem serve_keeps {c : Command} {f : State → State × Command} {s t : State} (hf : ∃ m, (f s).1 = s.setMem m)
    (h : serve c f s = .next t) : KeepsRx s t ∧ t.session = s.session := by
  obtain ⟨m, hm⟩ := hf
  rcases serve_cases c f s with ⟨e, -, he⟩ | ⟨-, he⟩ <;> rw [he] at h
  · exact ⟨(transmit_keeps h).1, (transmit_keeps h).2.2⟩
  · rw [hm] at h
    obtain ⟨⟨h1, h2, h3⟩, -, h4⟩ := transmit_keeps h
    exact ⟨⟨h1, h2, h3⟩, h4⟩

theorem serve_keeps_mem {c : Command} {f : State → State × Command} {s t : State} (hf : (f s).1 = s)
    (h : serve c f s = .next t) : t.mem = s.mem := by
  rcases serve_cases c f s with ⟨e, -, he⟩ | ⟨-, he⟩ <;> rw [he] at h
  · exact (transmit_keeps h).2.1
  · rw [hf] at h; exact (transmit_keeps h).2.1

theorem targetAccess_state {code : Byte} {f : State → State × Command} {s : State} (hf : ∃ m, (f s).1 = s.setMem m) :
    ∃ m, (targetAccess code f s).1 = s.setMem m := by
  rcases targetAccess_cases code f s with ⟨e, -, he⟩ | ⟨-, he⟩ <;> rw [he]
  · exact ⟨s.mem, rfl⟩
  · exact hf

theorem targetAccess_same {code : Byte} {f : State → State × Command} {s : State} (hf : (f s).1 = s) :
    (targetAccess code f s).1 = s := by
  rcases targetAccess_cases code f s with ⟨e, -, he⟩ | ⟨-, he⟩ <;> rw [he]
  exact hf

/-! ### Instructions and transactions -/

/-- What a command, however it is used, may change of the receive side (nothing), the register space and the session. -/
structure CommandFrame (i : Instr) (s t : State) : Prop where
  rx : KeepsRx s t
  mem : t.mem = s.mem ∨ (∃ a w n v, i = .write (.receive .serve) a w n v) ∨
    ∃ a w m v, i = .setclr (.receive .serve) a w m v
  session : t.session = s.session ∨ s.session = .idle ∨
    (∃ r k e, s.session = .awaiting r k ∧ i = .ack (.receive .settle) r.code e) ∨
    ∃ a w n v k, s.session = .awaiting (.read a w n) k ∧ i = .readResp (.receive .settle) a w n v

theorem exec_command_frame {i : Instr} {s t : State} (hp : i.port ≠ .link) (h : exec i s = .next t) :
    CommandFrame i s t := by
  have sent : ∀ c, transmit c s = .next t → CommandFrame i s t := fun c hc =>
    ⟨(transmit_keeps hc).1, .inl (transmit_keeps hc).2.1, .inl (transmit_keeps hc).2.2⟩
  have asked : ∀ c, request c s = .next t → CommandFrame i s t := fun c hc =>
    ⟨(request_keeps hc).1, .inl (request_keeps hc).2.1, .inr (.inl (request_keeps hc).2.2)⟩
  have same : Host.Outcome.next s = (Host.Outcome.next t : StepOutcome) → CommandFrame i s t := by
    intro hs
    simp only [Host.Outcome.next.injEq] at hs
    subst hs
    exact ⟨.refl s, .inl rfl, .inl rfl⟩
  cases i with
  | echo u d =>
    match u with
    | .transmit => exact sent _ h
    | .request => exact asked _ h
    | .receive .serve =>
      have hk := serve_keeps ⟨s.mem, rfl⟩ h
      exact ⟨hk.1, .inl (serve_keeps_mem rfl h), .inl hk.2⟩
    | .receive .settle => exact same h
  | read u a w c =>
    match u with
    | .transmit => exact sent _ h
    | .request => exact asked _ h
    | .receive .serve =>
      have hk := serve_keeps (targetAccess_state ⟨s.mem, rfl⟩) h
      exact ⟨hk.1, .inl (serve_keeps_mem (targetAccess_same rfl) h), .inl hk.2⟩
    | .receive .settle => exact same h
  | write u a w c v =>
    match u with
    | .transmit => exact sent _ h
    | .request => exact asked _ h
    | .receive .serve =>
      have hk := serve_keeps (targetAccess_state ⟨_, rfl⟩) h
      exact ⟨hk.1, .inr (.inl ⟨_, _, _, _, rfl⟩), .inl hk.2⟩
    | .receive .settle => exact same h
  | setclr u a w m v =>
    match u with
    | .transmit => exact sent _ h
    | .request => exact asked _ h
    | .receive .serve =>
      have hk := serve_keeps (targetAccess_state ⟨_, rfl⟩) h
      exact ⟨hk.1, .inr (.inr ⟨_, _, _, _, rfl⟩), .inl hk.2⟩
    | .receive .settle => exact same h
  | readResp u a w c v =>
    match u with
    | .transmit => exact sent (.readResp a w c v) h
    | .receive .serve => exact sent (ackOf s.params readRespCode .badCmd) h
    | .receive .settle =>
      simp only [exec, execReadResp, Host.Outcome.next.injEq] at h
      subst h
      rcases settleReadResp_cases a w c v s with he | ⟨n, hs, he⟩ <;> rw [he]
      · exact ⟨.refl s, .inl rfl, .inl rfl⟩
      · exact ⟨(s.finish_keeps _).1, .inl (s.finish_keeps _).2, .inr (.inr (.inr ⟨_, _, _, _, _, hs, rfl⟩))⟩
  | ack u q e =>
    match u with
    | .transmit =>
      rcases execAck_transmit_cases q e s with ⟨-, he⟩ | ⟨-, he⟩ <;> simp only [exec, he] at h
      · exact sent _ h
      · simp at h
    | .receive .serve => exact sent (ackOf s.params ackCode .badCmd) h
    | .receive .settle =>
      simp only [exec, execAck, Host.Outcome.next.injEq] at h
      subst h
      rcases settleAck_cases q e s with he | ⟨r, n, hs, rfl, he⟩ <;> rw [he]
      · exact ⟨.refl s, .inl rfl, .inl rfl⟩
      · exact ⟨(s.finish_keeps _).1, .inl (s.finish_keeps _).2, .inr (.inr (.inl ⟨_, _, _, hs, rfl⟩))⟩
  | reservedCmd u b pl =>
    match u with
    | .serve => exact sent (ackOf s.params b .badCmd) h
    | .settle => exact same h
  | flag => exact absurd rfl hp
  | escFlag => exact absurd rfl hp
  | escEsc => exact absurd rfl hp
  | escOther b => exact absurd rfl hp
  | literal b => exact absurd rfl hp

/-- A link symbol takes one byte or one pair, whatever the state; nothing else changes. -/
theorem exec_symbol_cases {i : Instr} (hp : i.port = .link) :
    (∃ b, (i = .flag ∧ b = 0x7E ∨ i = .literal b) ∧ ∀ s, exec i s = .next (s.takeByte b)) ∨
    ∃ c, (i = .escFlag ∧ c = 0x5E ∨ i = .escEsc ∧ c = 0x5D ∨ i = .escOther c) ∧
      ∀ s, exec i s = .next (s.takePair 0x7D c) := by
  cases i with
  | echo u d => cases u <;> simp [Instr.port, ReqUse.port] at hp
  | read u a w c => cases u <;> simp [Instr.port, ReqUse.port] at hp
  | write u a w c v => cases u <;> simp [Instr.port, ReqUse.port] at hp
  | setclr u a w m v => cases u <;> simp [Instr.port, ReqUse.port] at hp
  | readResp u a w c v => cases u <;> simp [Instr.port, RespUse.port] at hp
  | ack u q e => cases u <;> simp [Instr.port, RespUse.port] at hp
  | reservedCmd u b pl => simp [Instr.port] at hp
  | flag => exact .inl ⟨_, .inl ⟨rfl, rfl⟩, fun _ => rfl⟩
  | escFlag => exact .inr ⟨_, .inl ⟨rfl, rfl⟩, fun _ => rfl⟩
  | escEsc => exact .inr ⟨_, .inr (.inl ⟨rfl, rfl⟩), fun _ => rfl⟩
  | escOther b => exact .inr ⟨b, .inr (.inr rfl), fun _ => rfl⟩
  | literal b => exact .inl ⟨b, .inr rfl, fun _ => rfl⟩

/-- What a transaction may change of the event port, the register space and the session. -/
structure TransactFrame (a : Act) (s t : State) : Prop where
  rxEvent : (∃ b, a = .linkByte b ∧ t = s.takeByte b) ∨ t.rxEvent = s.rxEvent ∨ t.rxEvent = none
  mem : t.mem = s.mem ∨ ∃ x b, a = .targetChange x b
  session : t.session = s.session ∨ s.session = .idle ∨ a = .reset ∨ a = .tick

theorem transact_frame {a : Act} {s t : State} (h : transact a s = .next t) : TransactFrame a s t := by
  cases a with
  | linkByte b =>
    simp only [transact, Host.Outcome.next.injEq] at h; subst h; exact ⟨.inl ⟨b, rfl, rfl⟩, .inl rfl, .inl rfl⟩
  | linkReady =>
    simp only [transact, Host.Outcome.next.injEq] at h; subst h
    rcases s.txEmit_cases with e | ⟨b, r, -, e⟩ <;> rw [e] <;> exact ⟨.inr (.inl rfl), .inl rfl, .inl rfl⟩
  | idle =>
    simp only [transact, Host.Outcome.next.injEq] at h; subst h
    rcases s.txEmit_cases with e | ⟨b, r, -, e⟩ <;> rw [e] <;> exact ⟨.inr (.inl rfl), .inl rfl, .inl rfl⟩
  | txStart x =>
    simp only [transact] at h
    rcases s.txStart_cases x with ⟨-, he⟩ | ⟨-, -, he⟩ | ⟨-, -, he⟩ <;> rw [he] at h
    · simp at h
    · simp only [Host.Outcome.next.injEq] at h; subst h; exact ⟨.inr (.inl rfl), .inl rfl, .inl rfl⟩
    · simp only [Host.Outcome.next.injEq] at h; subst h; exact ⟨.inr (.inl rfl), .inl rfl, .inl rfl⟩
  | flashUpdate off len src =>
    simp only [transact, State.flashBegin] at h
    split at h
    · simp at h
    · split at h
      · simp at h
      · split at h <;> (simp only [Host.Outcome.next.injEq] at h; subst h; exact ⟨.inr (.inl rfl), .inl rfl, .inl rfl⟩)
  | rejected u x e =>
    match u with
    | .serve =>
      have hk := transmit_keeps (c := ackOf s.params (x.headD 0x00) e.code) h
      exact ⟨.inr (.inl hk.1.rxEvent), .inl hk.2.1, .inl hk.2.2⟩
    | .settle =>
      simp only [transact, rejected, Host.Outcome.next.injEq] at h; subst h
      exact ⟨.inr (.inl rfl), .inl rfl, .inl rfl⟩
  | blocked => simp [transact] at h
  | tick =>
    simp only [transact, Host.Outcome.next.injEq] at h; subst h
    rcases s.tick_cases with ⟨-, he⟩ | ⟨r, n, -, -, he⟩ | ⟨r, n, -, -, he⟩ <;> rw [he]
    · exact ⟨.inr (.inl rfl), .inl rfl, .inl rfl⟩
    · exact ⟨.inr (.inl (s.finish_keeps _).1.rxEvent), .inl (s.finish_keeps _).2, .inr (.inr (.inr rfl))⟩
    · exact ⟨.inr (.inl rfl), .inl rfl, .inr (.inr (.inr rfl))⟩
  | rxFlush =>
    simp only [transact, Host.Outcome.next.injEq] at h; subst h; exact ⟨.inr (.inl rfl), .inl rfl, .inl rfl⟩
  | reset =>
    simp only [transact, Host.Outcome.next.injEq] at h; subst h
    exact ⟨.inr (.inr rfl), .inl rfl, .inr (.inr (.inl rfl))⟩
  | targetAnswer e =>
    simp only [transact, Host.Outcome.next.injEq] at h; subst h; exact ⟨.inr (.inl rfl), .inl rfl, .inl rfl⟩
  | targetChange x b =>
    simp only [transact, Host.Outcome.next.injEq] at h; subst h
    exact ⟨.inr (.inl rfl), .inr ⟨x, b, rfl⟩, .inl rfl⟩
  | nothing =>
    simp only [transact, Host.Outcome.next.injEq] at h; subst h; exact ⟨.inr (.inl rfl), .inl rfl, .inl rfl⟩

/-- An event stands at the port after a step only where the step took a link byte: it is that of the byte, or of a pair that
begins with it (R306, R272). -/
theorem step_event_origin {s t : State} {e : RxEvent} (h : step s = .next t) (he : t.rxEvent = some e) :
    ∃ u b, Taken s u ∧ s.inputs.head? = some (.linkByte b) ∧
      (t = u.takeByte b ∨ (∃ c, c ≠ 0x7E ∧ t = u.takePair 0x7D c)) := by
  have ht := fetch_taken s
  simp only [step] at h
  cases hf : fetch s with
  | instr i u =>
    rw [hf] at h ht
    simp only [Fetched.state] at h ht
    by_cases hp : i.port = .link
    · obtain ⟨b, r, l, hi, hd⟩ := fetch_symbol hf hp
      obtain ⟨w, hw⟩ := linkWindow_cons b r
      refine ⟨u, b, ht, by rw [hi]; rfl, ?_⟩
      rw [hi, hw] at hd
      rcases exec_symbol_cases hp with ⟨b', hb, hx⟩ | ⟨c, hc, hx⟩ <;> rw [hx] at h <;> simp only [Host.Outcome.next.injEq] at h
      · rcases hb with ⟨rfl, rfl⟩ | rfl
        · left; rw [(decodeSymbol_head hd).1 rfl]; exact h.symm
        · left
          rw [← ((decodeSymbol_head hd).2.1 b' rfl).1]; exact h.symm
      · right
        refine ⟨c, ?_, h.symm⟩
        rcases hc with ⟨-, rfl⟩ | ⟨-, rfl⟩ | rfl
        · decide
        · decide
        · exact fetch_pair hf
    · have := (exec_command_frame hp h).rx.rxEvent
      rw [this, ht.rxEvent] at he; simp at he
  | act a u =>
    rw [hf] at h ht
    simp only [Fetched.state] at h ht
    rcases (transact_frame h).rxEvent with ⟨b, hb, ht'⟩ | hk | hk
    · exact ⟨u, b, ht, (fetch_act hf).1 b hb, .inl ht'⟩
    · rw [hk, ht.rxEvent] at he; simp at he
    · rw [hk] at he; simp at he

/-- The host's send of a command. -/
theorem exec_transmitted {c : Command} {s : State} (h : sendable s.params c = true) :
    exec c.transmitted s = transmit c s := by
  cases c with
  | ack q e => exact if_pos h
  | _ => rfl

/-- An ACK with a reserved `err` is not sent (R98; U3). -/
theorem exec_transmitted_refused {c : Command} {s : State} (h : sendable s.params c = false) :
    exec c.transmitted s = .refused .reservedErr := by
  cases c with
  | ack q e =>
    simp only [Command.transmitted, exec, execAck]
    rw [if_neg (by simp [h])]
  | _ => simp [sendable] at h

/-- A session request. -/
theorem exec_requested {c : Command} {i : Instr} (h : c.requested = some i) (s : State) :
    exec i s = request c s ∧ isRequest c = true := by
  cases c <;> simp [Command.requested] at h <;> subst h <;> exact ⟨rfl, rfl⟩

end Sys2Proof.Machine
end

