-- ==== Sys2Proof/Laws/PerInstr.lean ====
section
/-! SUPPORT. One lemma for each instruction: how many bytes its encoding has (30_encoding.md R80, R82, R84). -/

namespace Sys2Proof.Laws.EncodeLength

/-- The encoding of a well-formed instruction is one or two bytes at the link, and within the command range elsewhere. -/
def Statement (i : Instr) : Prop :=
  ∀ p : Params, i.wellFormed p = true →
    match i.port with
    | .link => (encode p i).length = 1 ∨ (encode p i).length = 2
    | _ => p.minCmdLen ≤ (encode p i).length ∧ (encode p i).length ≤ p.maxCmdLen

/-- A command's Layout is within the range its well-formedness checks. -/
theorem command_range {p : Params} {c : Command} (h : c.transmitted.wellFormed p = true) :
    p.minCmdLen ≤ (layout p c).length ∧ (layout p c).length ≤ p.maxCmdLen := by
  have := lengthFits_iff.1 (lengthFits_payload h)
  rw [layout_length]
  omega

theorem echo (u : ReqUse) (d : Bytes) : Statement (.echo u d) := by
  intro p h
  have := command_range (c := .echo d) h
  cases u <;> exact this

theorem read (u : ReqUse) (a : U32) (w : Byte) (c : U16) : Statement (.read u a w c) := by
  intro p h
  have := command_range (c := .read a w c) h
  cases u <;> exact this

theorem write (u : ReqUse) (a : U32) (w : Byte) (c : U16) (v : Bytes) : Statement (.write u a w c v) := by
  intro p h
  have := command_range (c := .write a w c v) h
  cases u <;> exact this

theorem setclr (u : ReqUse) (a : U32) (w : Byte) (m v : Bytes) : Statement (.setclr u a w m v) := by
  intro p h
  have := command_range (c := .setclr a w m v) h
  cases u <;> exact this

theorem readResp (u : RespUse) (a : U32) (w : Byte) (c : U16) (v : Bytes) : Statement (.readResp u a w c v) := by
  intro p h
  have := command_range (c := .readResp a w c v) h
  cases u <;> exact this

theorem ack (u : RespUse) (q e : Byte) : Statement (.ack u q e) := by
  intro p h
  have := command_range (c := .ack q e) h
  cases u <;> exact this

theorem reservedCmd (u : RecvUse) (b : Byte) (pl : Bytes) : Statement (.reservedCmd u b pl) := by
  intro p h
  simp only [Instr.wellFormed, Bool.and_eq_true, lengthFits_iff] at h
  show _ ≤ (withHeader p b pl).length ∧ (withHeader p b pl).length ≤ _
  rw [withHeader_length]
  omega

theorem flag : Statement .flag := fun _ _ => .inl rfl
theorem escFlag : Statement .escFlag := fun _ _ => .inr rfl
theorem escEsc : Statement .escEsc := fun _ _ => .inr rfl
theorem escOther (b : Byte) : Statement (.escOther b) := fun _ _ => .inr rfl
theorem literal (b : Byte) : Statement (.literal b) := fun _ _ => .inl rfl

end Sys2Proof.Laws.EncodeLength
end

