-- ==== Sys2Proof/Tests/Slice0.lean ====
section
/-! SUPPORT. Tests: each well-formedness check refuses an ill-formed term; words written out from the spec's layouts decode to the
instructions they stand for; one step or one call on vectors of 95_test_vectors.md; and, for every obligation with
hypotheses, a concrete state and operands that meet them (witness_<obligation>). -/

namespace Sys2Proof.Tests

open Sys2Proof.Machine

/-- The default build (00_scope.md R8). -/
abbrev dp : Params := Params.default

/-- A machine whose deframer is in a given state. -/
def withRx (st : RxState) (buf : Bytes) : State := { State.reset with rx := ⟨st, buf⟩ }

/-- A machine whose session awaits the answer to a request. -/
def awaits (r : Command) : State := { State.reset with session := .awaiting r 10 }

/-- A check of the next state; false where the step stops. -/
def nextIs (o : StepOutcome) (f : State → Bool) : Bool :=
  match o with
  | .next t => f t
  | _ => false

/-- A check that a step is refused for a given reason. -/
def refusedAs (o : StepOutcome) (r : Refusal) : Bool :=
  match o with
  | .refused q => decide (q = r)
  | _ => false

/-! ### Well-formedness: a term that breaks each check -/

theorem test_echo_empty_is_ill_formed : (Instr.echo .transmit []).wellFormed dp = false := by decide
theorem test_read_short_build_is_ill_formed :
    (Instr.read .transmit 0 1 1).wellFormed { dp with maxCmdLen := 9 } = false := by decide
theorem test_write_size_is_ill_formed : (Instr.write .transmit 0 2 1 [0x00]).wellFormed dp = false := by decide
theorem test_write_long_is_ill_formed :
    (Instr.write .transmit 0 1 1 [0x00]).wellFormed { dp with maxCmdLen := 10 } = false := by decide
theorem test_setclr_mask_is_ill_formed : (Instr.setclr .transmit 0 1 [] [0x00]).wellFormed dp = false := by decide
theorem test_setclr_val_is_ill_formed : (Instr.setclr .transmit 0 1 [0x00] []).wellFormed dp = false := by decide
theorem test_readResp_size_is_ill_formed : (Instr.readResp .transmit 0 1 2 [0x00]).wellFormed dp = false := by decide
theorem test_ack_short_range_is_ill_formed :
    (Instr.ack .transmit 1 0).wellFormed { dp with minCmdLen := 6 } = false := by decide
theorem test_reserved_variant_tag_is_ill_formed : (Instr.reservedCmd .serve 0x06 [0x00]).wellFormed dp = false := by decide
theorem test_reserved_short_is_ill_formed : (Instr.reservedCmd .serve 0x07 []).wellFormed dp = false := by decide
theorem test_escOther_flag_is_ill_formed : (Instr.escOther 0x7E).wellFormed dp = false := by decide
theorem test_escOther_pairs_are_ill_formed :
    (Instr.escOther 0x5E).wellFormed dp = false ∧ (Instr.escOther 0x5D).wellFormed dp = false := by decide
theorem test_literal_flag_is_ill_formed : (Instr.literal 0x7E).wellFormed dp = false := by decide
theorem test_literal_escape_is_ill_formed : (Instr.literal 0x7D).wellFormed dp = false := by decide

/-! ### Decoding: words from the layouts of 30_encoding.md R82, R85 to R90, R97 (vectors of S3 and S9) -/

theorem test_decode_echo :
    decode dp (.frame .serve) [0x01, 0x01, 0x00, 0xA5] = .ok (.echo (.receive .serve) [0xA5], []) := by decide
theorem test_decode_read : decode dp .request [0x02, 0x07, 0x00, 0x00, 0x10, 0x00, 0x40, 0x04, 0x02, 0x00] =
    .ok (.read .request 0x40001000 4 2, []) := by decide
theorem test_decode_write :
    decode dp .transmit [0x03, 0x0D, 0x00, 0x10, 0x00, 0x00, 0x20, 0x02, 0x03, 0x00, 0x7D, 0x7E, 0x34, 0x12, 0xFF, 0xFF] =
      .ok (.write .transmit 0x20000010 2 3 [0x7D, 0x7E, 0x34, 0x12, 0xFF, 0xFF], []) := by decide
theorem test_decode_setclr : decode dp (.frame .serve) [0x04, 0x07, 0x00, 0x01, 0x10, 0x00, 0x00, 0x01, 0x0F, 0x05] =
    .ok (.setclr (.receive .serve) 0x1001 1 [0x0F] [0x05], []) := by decide
theorem test_decode_readResp :
    decode dp (.frame .settle) [0x05, 0x0B, 0x00, 0x00, 0x10, 0x00, 0x40, 0x04, 0x01, 0x00, 0x44, 0x33, 0x22, 0x11] =
      .ok (.readResp (.receive .settle) 0x40001000 4 1 [0x44, 0x33, 0x22, 0x11], []) := by decide
theorem test_decode_ack :
    decode dp (.frame .settle) [0x06, 0x02, 0x00, 0x03, 0x05] = .ok (.ack (.receive .settle) 0x03 0x05, []) := by decide
theorem test_decode_reserved :
    decode dp (.frame .serve) [0x07, 0x01, 0x00, 0x00] = .ok (.reservedCmd .serve 0x07 [0x00], []) := by decide
theorem test_decode_symbols :
    decode dp .link [0x7E, 0x01] = .ok (.flag, [0x01]) ∧ decode dp .link [0x7D, 0x5E] = .ok (.escFlag, []) ∧
    decode dp .link [0x7D, 0x5D] = .ok (.escEsc, []) ∧ decode dp .link [0x7D, 0x85] = .ok (.escOther 0x85, []) ∧
    decode dp .link [0x5E] = .ok (.literal 0x5E, []) := by decide
theorem test_decode_rejects :
    decode dp .link [0x7D] = .error .pairIncomplete ∧ decode dp .link [0x7D, 0x7E] = .error .danglingEscape ∧
    decode dp (.frame .serve) [0x01, 0x02, 0x00, 0xA5] = .error (.deserialize .badCmdLen) ∧
    decode dp (.frame .serve) [0x02, 0x06, 0x00, 0x00, 0x10, 0x00, 0x40, 0x04, 0x02] =
      .error (.deserialize .badPayloadLen) ∧
    decode dp .request [0x06, 0x02, 0x00, 0x01, 0x00] = .error .wrongPort ∧
    decode dp (.frame .serve) [] = .error (.deserialize .badCmdLen) := by decide
/-- The big-endian build reads the same fields from the other byte order (20_memory.md R52). -/
theorem test_decode_big_endian :
    decode { dp with fieldEndian := .big } (.frame .serve) [0x02, 0x00, 0x07, 0x40, 0x00, 0x10, 0x00, 0x04, 0x00, 0x02] =
      .ok (.read (.receive .serve) 0x40001000 4 2, []) := by decide

/-- Every row of spec/opcode_table.json, by its match value, decodes to its own constructor. -/
theorem test_table_rows :
    decodeTableWord 8 0x01 = some (.echo .transmit [0x00]) ∧ decodeTableWord 8 0x02 = some (.read .transmit 0 0 0) ∧
    decodeTableWord 8 0x03 = some (.write .transmit 0 0 0 []) ∧ decodeTableWord 8 0x04 = some (.setclr .transmit 0 0 [] []) ∧
    decodeTableWord 8 0x05 = some (.readResp .transmit 0 0 0 []) ∧ decodeTableWord 8 0x06 = some (.ack .transmit 0 0) ∧
    decodeTableWord 8 0x00 = some (.reservedCmd .serve 0x00 [0x00]) ∧ decodeTableWord 8 0x7E = some .flag ∧
    decodeTableWord 16 0x7D5E = some .escFlag ∧ decodeTableWord 16 0x7D5D = some .escEsc ∧
    decodeTableWord 16 0x7D00 = some (.escOther 0x00) ∧ decodeTableWord 8 0x41 = some (.literal 0x41) := by decide

/-- The placed word is what the next step fetches, from reset (one row of each kind). -/
theorem test_fetch_placed :
    (match fetch (State.reset.withFetchWord 8 0x06) with | .instr i _ => decide (i = .ack .transmit 0 0) | _ => false) = true ∧
    (match fetch (State.reset.withFetchWord 8 0x00) with
      | .instr i _ => decide (i = .reservedCmd .serve 0x00 [0x00]) | _ => false) = true ∧
    (match fetch (State.reset.withFetchWord 16 0x7D5E) with | .instr i _ => decide (i = .escFlag) | _ => false) = true ∧
    (match fetch (State.reset.withFetchWord 8 0x41) with | .instr i _ => decide (i = .literal 0x41) | _ => false) = true := by
  decide

/-! ### The CRC unit and the framer: S2, S3 -/

theorem test_crc_check_value : crc16 .ccittFalse [0x31, 0x32, 0x33, 0x34, 0x35, 0x36, 0x37, 0x38, 0x39] = 0x29B1 := by
  decide +kernel
/-- The reflected variant with final inversion (93_implementation_defined.md U1): 0x906E. -/
theorem test_crc_reflected :
    crc16 { poly := 0x1021, init := 0xFFFF, refIn := true, refOut := true, xorOut := 0xFFFF }
      [0x31, 0x32, 0x33, 0x34, 0x35, 0x36, 0x37, 0x38, 0x39] = 0x906E := by decide +kernel
theorem test_encode_e16 : frameOf dp [0x01, 0x02, 0x00, 0xEC, 0x70] =
    [0x7E, 0x01, 0x02, 0x00, 0xEC, 0x70, 0x7D, 0x5D, 0x7D, 0x5D, 0x7E] := by decide +kernel
theorem test_serialize_e7 : serialize dp (.setclr 0x4000207C 4 [0x00, 0xFF, 0x00, 0x00] [0x00, 0x7D, 0x00, 0x00]) =
    .ok [0x04, 0x0D, 0x00, 0x7C, 0x20, 0x00, 0x40, 0x04, 0x00, 0xFF, 0x00, 0x00, 0x00, 0x7D, 0x00, 0x00] := by rfl
/-- V9 and V3 of S10: a misaligned WRITE and a bad width. -/
theorem test_validate_order :
    validate dp (.write 0x1001 4 1 [0xEF, 0xBE, 0xAD, 0xDE]) = some .notAligned ∧
    validate dp (.write 0x1001 3 0 []) = some .badWidth ∧ validate dp (.read 0x1001 4 257) = some .badCount := by decide

/-! ### The link symbols: rows of S4 -/

/-- X1 and X15. -/
theorem test_flag :
    nextIs (exec .flag (withRx .hunt [])) (fun t => decide (t.rx = ⟨.inFrame, []⟩ ∧ t.rxEvent = none)) = true ∧
    nextIs (exec .flag (withRx .inFrame [0x06, 0x02, 0x00, 0x01, 0x00, 0xD0, 0x02]))
      (fun t => decide (t.rx = ⟨.hunt, []⟩ ∧ t.rxEvent = some (.frame [0x06, 0x02, 0x00, 0x01, 0x00]))) = true := by
  decide +kernel
/-- X16, X12. -/
theorem test_flag_reports :
    nextIs (exec .flag (withRx .inFrame [0x06, 0x02, 0x00, 0x01, 0x00, 0xD0, 0x03]))
      (fun t => decide (t.rx = ⟨.hunt, []⟩ ∧ t.rxEvent = some .crcMismatch)) = true ∧
    nextIs (exec .flag (withRx .inFrame [0x55]))
      (fun t => decide (t.rx = ⟨.hunt, []⟩ ∧ t.rxEvent = some .malformed)) = true := by decide +kernel
/-- X5 then X6. -/
theorem test_escFlag : nextIs (exec .escFlag (withRx .inFrame [0x01, 0x01, 0x00]))
    (fun t => decide (t.rx = ⟨.inFrame, [0x01, 0x01, 0x00, 0x7E]⟩)) = true := by decide
/-- X5 then X7. -/
theorem test_escEsc : nextIs (exec .escEsc (withRx .inFrame [0x01, 0x01, 0x00]))
    (fun t => decide (t.rx = ⟨.inFrame, [0x01, 0x01, 0x00, 0x7D]⟩)) = true := by decide
/-- X5 then X9, the lenient pair. -/
theorem test_escOther : nextIs (exec (.escOther 0x00) (withRx .inFrame [0x01, 0x01, 0x00]))
    (fun t => decide (t.rx = ⟨.inFrame, [0x01, 0x01, 0x00, 0x20]⟩)) = true := by decide
/-- X4 and X2. -/
theorem test_literal :
    nextIs (exec (.literal 0xA5) (withRx .inFrame [0x01, 0x01, 0x00]))
      (fun t => decide (t.rx = ⟨.inFrame, [0x01, 0x01, 0x00, 0xA5]⟩)) = true ∧
    nextIs (exec (.literal 0x41) (withRx .hunt [])) (fun t => decide (t.rx = ⟨.hunt, []⟩)) = true := by decide
/-- X17 in a build with room for two bytes: the third raises FrameTooLong (R158). -/
theorem test_literal_overflow :
    nextIs (exec (.literal 0x00) { withRx .inFrame [0x11, 0x22] with params := { dp with maxCmdLen := 0 } })
      (fun t => decide (t.rx = ⟨.hunt, []⟩ ∧ t.rxEvent = some .frameTooLong)) = true := by decide
/-- F2 of S5: a flip that makes a FLAG closes the frame early, the true EOF is taken for an SOF. -/
theorem test_flip_to_flag :
    Deframer.run dp .fresh 0 [0x7E, 0x01, 0x01, 0x00, 0x7E, 0x3C, 0x4A, 0x7E] = (⟨.inFrame, []⟩, [(4, .crcMismatch)]) := by
  decide +kernel

/-! ### The commands: programs P1, P3, P5, P6 of S12, rows of S11 -/

/-- P6, step 1 at the sender and step 2 at the slave. -/
theorem test_echo :
    nextIs (exec (.echo .request [0xA5]) State.reset) (fun t => decide
      (t.txQueue = [0x7E, 0x01, 0x01, 0x00, 0xA5, 0x0B, 0x20, 0x7E] ∧ t.session = .awaiting (.echo [0xA5]) 10)) = true ∧
    nextIs (exec (.echo (.receive .serve) [0xA5]) State.reset) (fun t => decide
      (t.txQueue = [0x7E, 0x06, 0x02, 0x00, 0x01, 0x00, 0xD0, 0x02, 0x7E])) = true := by decide +kernel
/-- P1, steps 4 and 5: two registers read, the frame E3. -/
theorem test_read :
    nextIs (exec (.read (.receive .serve) 0x40001000 4 2) { State.reset with
        mem := memWrite (memWrite [] 0x40001000 4 0x11223344) 0x40001004 4 0xAABBCCDD })
      (fun t => decide (t.txQueue = [0x7E, 0x05, 0x0F, 0x00, 0x00, 0x10, 0x00, 0x40, 0x04, 0x02, 0x00, 0x44, 0x33, 0x22,
        0x11, 0xDD, 0xCC, 0xBB, 0xAA, 0x4C, 0x58, 0x7E])) = true := by decide +kernel
/-- WRITE of two elements: element i at addr + i × width (R233, R237). -/
theorem test_write :
    nextIs (exec (.write (.receive .serve) 0x20000010 2 2 [0x7D, 0x7E, 0x34, 0x12]) State.reset)
      (fun t => decide (t.mem = [(0x20000010, 0x7D), (0x20000011, 0x7E), (0x20000012, 0x34), (0x20000013, 0x12)])) = true := by
  decide +kernel
/-- P5: a misaligned WRITE is NACKed and the target not touched. -/
theorem test_write_misaligned :
    nextIs (exec (.write (.receive .serve) 0x1001 4 1 [0xEF, 0xBE, 0xAD, 0xDE]) State.reset)
      (fun t => decide (t.mem = [] ∧ t.txQueue = [0x7E, 0x06, 0x02, 0x00, 0x03, 0x05, 0x17, 0x34, 0x7E])) = true := by
  decide +kernel
/-- P3, step 4: 0x12345678 becomes 0x12347D78. -/
theorem test_setclr :
    nextIs (exec (.setclr (.receive .serve) 0x4000207C 4 [0x00, 0xFF, 0x00, 0x00] [0x91, 0x7D, 0x00, 0x00])
        { State.reset with mem := memWrite [] 0x4000207C 4 0x12345678 })
      (fun t => decide (memRead t.mem 0x4000207C 4 = 0x12347D78)) = true := by decide +kernel
/-- S11: READ_RESP with the request's three fields ends the READ with its values; with another count it is dropped. -/
theorem test_readResp :
    nextIs (exec (.readResp (.receive .settle) 0x40001000 4 2 [0x44, 0x33, 0x22, 0x11, 0xDD, 0xCC, 0xBB, 0xAA])
        (awaits (.read 0x40001000 4 2)))
      (fun t => decide (t.session = .idle ∧ t.result = some (.values [0x11223344, 0xAABBCCDD]))) = true ∧
    nextIs (exec (.readResp (.receive .settle) 0x40001000 4 1 [0x44, 0x33, 0x22, 0x11]) (awaits (.read 0x40001000 4 2)))
      (fun t => decide (t = awaits (.read 0x40001000 4 2))) = true := by decide +kernel
/-- S11: an ACK for another request is stale; a reserved `err` is a failure. -/
theorem test_ack :
    nextIs (exec (.ack (.receive .settle) 0x01 0x00) (awaits (.write 0 1 1 [0x00])))
      (fun t => decide (t.session ≠ .idle)) = true ∧
    nextIs (exec (.ack (.receive .settle) 0x03 0x55) (awaits (.write 0 1 1 [0x00])))
      (fun t => decide (t.session = .idle ∧ t.result = some (.failed 0x55))) = true := by decide +kernel
/-- R98: an ACK with a reserved `err` is never sent; the last named code is. -/
theorem test_ack_reserved_err :
    refusedAs (exec (.ack .transmit 0x03 0x0B) State.reset) .reservedErr = true ∧
    nextIs (exec (.ack .transmit 0x03 0x0A) State.reset) (fun t => decide (t.txQueue ≠ [])) = true := by decide +kernel
/-- R306: an event that the next transaction does not take is lost. -/
theorem test_event_lost :
    nextIs (step { awaits (.echo [0xA5]) with rxEvent := some (.frame [0x06, 0x02, 0x00, 0x01, 0x00]), inputs := [.tick, .settle] })
      (fun t => decide (t.rxEvent = none ∧ t.session ≠ .idle)) = true := by decide
/-- P5's variant: an unknown `cmd` is NACKed with BAD_CMD and itself as `req`. -/
theorem test_reservedCmd :
    nextIs (exec (.reservedCmd .serve 0x07 [0x00]) State.reset)
      (fun t => decide (t.txQueue = frameOf dp [0x06, 0x02, 0x00, 0x07, 0x02])) = true := by decide +kernel
/-- A NACK is an ACK with an error; reserved `err` values have no name (R98, R103). -/
theorem test_error_codes :
    Command.nack 0x03 0x05 = .ack 0x03 0x05 ∧ ErrCodes.ordinal.name? 0x05 = some .notAligned ∧
    ErrCodes.ordinal.name? 0x0B = none := by decide
/-- S7: a length that is no multiple of a sector is refused. -/
theorem test_flashUpdate_precondition :
    refusedAs (step { State.reset with inputs := [.flashUpdate 0 0x400 []] }) .flashPrecondition = true := by decide
/-- S3's TxStart/TxEmit on E10: a TxStart while bytes are queued is refused. -/
theorem test_txStart_busy :
    refusedAs (step { State.reset with txQueue := [0x00], inputs := [.txStart [0x06, 0x02, 0x00, 0x01, 0x00]] }) .txBusy
      = true := by decide

/-! ### Witnesses: each obligation's hypotheses are met together, each clause at a boundary of its range -/

/-- The default build is admissible (R8). -/
theorem dp_admissible : dp.admissible := by decide

/-- The largest payload a WRITE can carry: 256 elements of 4 bytes (R91). -/
def fullValues : Bytes := List.replicate 1024 0x7D

theorem fullValues_length : fullValues.length = 1024 := List.length_replicate

theorem witness_DecodeInvertsEncode :
    (Instr.read (.receive .serve) 0x40001000 4 2).wellFormed dp = true ∧
    (Instr.echo .request [0x7E]).wellFormed dp = true ∧ (Instr.reservedCmd .settle 0xFF [0x00]).wellFormed dp = true ∧
    (Instr.escOther 0x7D).wellFormed dp = true ∧ (Instr.escOther 0x7D).port = .link := by decide
theorem witness_CodecRoundTrip : dp.admissible ∧ validate dp (.setclr 0xFFFFFFFF 1 [0x0F] [0x05]) = none ∧
    deserialize dp [0x04, 0x07, 0x00, 0xFF, 0xFF, 0xFF, 0xFF, 0x01, 0x0F, 0x05] =
      .ok (.setclr 0xFFFFFFFF 1 [0x0F] [0x05]) := by decide
theorem witness_LenFieldIsExpectedLen : dp.admissible ∧ validate dp (.write 0xFFFFFC00 4 256 fullValues) = none :=
  ⟨dp_admissible, validateValues_none.2 ⟨by decide, by decide, fullValues_length, by decide⟩⟩
theorem witness_SerializeResultSizes : ∃ x, serialize dp (.echo [0xA5]) = .ok x := ⟨_, rfl⟩
/-- Two bytes; three bytes, below MIN_CMD_LEN; a whole command whose `len` agrees, and one whose `len` does not. -/
theorem witness_LengthIsCheckedBeforeTheTag :
    [0x01, 0x00].length < 3 ∧ [0x01, 0x00, 0x00].length < dp.minCmdLen ∧
    dp.minCmdLen ≤ [0x01, 0x01, 0x00, 0xA5].length ∧ [0x01, 0x01, 0x00, 0xA5].length ≤ dp.maxCmdLen ∧
    [0x01, 0x01, 0x00, 0xA5].length = 3 + ofField dp.fieldEndian [0x01, 0x00] ∧
    [0x01, 0x02, 0x00, 0xA5].length ≠ 3 + ofField dp.fieldEndian [0x02, 0x00] := by decide
/-- A command of MAX_CMD_LEN + 1 bytes. -/
theorem witness_LengthIsCheckedBeforeTheTag_tooLong : dp.maxCmdLen < (List.replicate 1035 (0x00 : Byte)).length := by
  rw [List.length_replicate]; decide
/-- A payload below each fixed part, and one of exactly the fixed part. -/
theorem witness_FieldsAreReadFromTheirOffsets :
    dp.fieldEndian = .little ∧ ([0, 0, 0, 0, 0, 0] : Bytes).length ≠ 7 ∧ ([0, 0, 0, 0, 0, 0] : Bytes).length < 7 ∧
    ([0, 0, 0, 0] : Bytes).length < 5 ∧ ([0] : Bytes).length ≠ 2 := by decide
theorem witness_DeserializedLengthIsImplied : deserialize dp [0x06, 0x02, 0x00, 0x01, 0x00] = .ok (.ack 0x01 0x00) := by
  decide
/-- Width 3; counts 0 and 257; a wrong size; a misaligned address; and a command with nothing wrong. -/
theorem witness_ValidateReportsFirstFailure :
    ¬ ((3 : Byte).toNat = 1 ∨ (3 : Byte).toNat = 2 ∨ (3 : Byte).toNat = 4) ∧
    ((4 : Byte).toNat = 1 ∨ (4 : Byte).toNat = 2 ∨ (4 : Byte).toNat = 4) ∧
    (0 : U16).toNat = 0 ∧ 256 < (257 : U16).toNat ∧ ¬ ((256 : U16).toNat = 0 ∨ 256 < (256 : U16).toNat) ∧
    ([] : Bytes).length ≠ (1 : U16).toNat * (4 : Byte).toNat ∧
    ([0, 0, 0, 0] : Bytes).length = (1 : U16).toNat * (4 : Byte).toNat ∧
    (0x1001 : U32).toNat % (4 : Byte).toNat ≠ 0 ∧ (0xFFFFFFFC : U32).toNat % (4 : Byte).toNat = 0 := by decide
theorem witness_CrcDetectsSingleBitFlip : CrcParams.ccittFalse.poly.getLsbD 0 = true ∧ 7 < 8 := by decide
/-- The longest input Encode takes. -/
theorem witness_EncodedFramesAreDelimitedAndDecode : (List.replicate 1034 (0x7E : Byte)).length ≤ dp.maxCmdLen := by
  rw [List.length_replicate]; decide
theorem witness_FrameLength : (List.replicate 1034 (0x7D : Byte)).length ≤ dp.maxCmdLen := by
  rw [List.length_replicate]; decide
/-- A destuffed pair, and a dangling escape that raises no event (D3, D11). -/
theorem witness_DeframerAccumulatesUnstuffedBytes :
    (∀ b ∈ ([0x7D, 0x5E, 0x00] : Bytes), b ≠ 0x7E) ∧ unstuff [0x7D, 0x5E, 0x00] = some [0x7E, 0x00] ∧
    ([0x7E, 0x00] : Bytes).length ≤ dp.rxCap ∧
    (Deframer.run dp ⟨.inFrame, []⟩ 0 [0x06, 0x02, 0x7D]).2 = [] ∧ unstuff [0x06, 0x02, 0x7D] = none := by decide
/-- Busy; free with one byte too many (in a small build); free with what fits. -/
theorem witness_TxStartRule :
    ({ State.reset with txQueue := [0x7E], inputs := [.txStart []] } : State).txQueue ≠ [] ∧
    ({ State.reset with params := { dp with maxCmdLen := 0 }, inputs := [.txStart [0x00]] } : State).params.maxCmdLen
      < [0x00].length ∧
    ({ State.reset with inputs := [.txStart []] } : State).txQueue = [] ∧ ([] : Bytes).length ≤ dp.maxCmdLen := by decide
theorem witness_QueueDrainsInOrder :
    ({ State.reset with txQueue := [0x7E], inputs := [.linkReady] } : State).txQueue = 0x7E :: [] ∧
    ({ State.reset with txQueue := [0x7E] } : State).inputs = [] ∧
    ({ State.reset with txQueue := [0x7E] } : State).txQueue ≠ [] := by decide
theorem witness_LinkCarriesWholeFrames : State.reset.LinkIsFrames ∧ step State.reset = .next State.reset :=
  ⟨⟨[], by simp, rfl⟩, rfl⟩
theorem witness_HuntScansForSof : State.reset.rx.rxState = .hunt ∧ (0x7D : Byte) ≠ 0x7E := by decide
/-- X13 and X14: the empty command with its CRC, and with another one. -/
theorem witness_FlagClosesAndChecksFrame :
    (withRx .inFrame [0xFF, 0xFF]).rx = ⟨.inFrame, [] ++ [0xFF, 0xFF]⟩ ∧
    crc16 dp.crc [] = crcOfBytes dp [0xFF, 0xFF] ∧ crc16 dp.crc [] ≠ crcOfBytes dp [0x00, 0x00] := by decide +kernel
theorem witness_FlagInShortOrDanglingFrame :
    (withRx .inFrame []).rx = ⟨.inFrame, []⟩ ∧ (withRx .inFrame [0x55]).rx = ⟨.inFrame, [0x55]⟩ ∧
    (withRx .esc []).rx.rxState = .esc := by decide
/-- A byte with room, and a buffer that is exactly full (X17). -/
theorem witness_DataBytesAreStoredOrOverflow :
    (withRx .inFrame []).rx.rxState = .inFrame ∧ (withRx .esc []).rx.rxState = .esc ∧
    (0x5E : Byte) ≠ 0x7E ∧ (0x5E : Byte) ≠ 0x7D ∧ ([] : Bytes).length ≠ dp.rxCap := by decide
theorem witness_DataBytesAreStoredOrOverflow_full : (List.replicate 1036 (0x11 : Byte)).length = dp.rxCap := by
  rw [List.length_replicate]; decide
theorem witness_EscapePairs :
    ((0x7D : Byte) ≠ 0x7E ∧ (0x7D : Byte) ≠ 0x5E ∧ (0x7D : Byte) ≠ 0x5D) ∧ (withRx .hunt []).rx.rxState = .hunt ∧
    (withRx .inFrame []).rx.rxState = .inFrame ∧ (withRx .esc []).rx.rxState = .esc := by decide
/-- A full buffer, and one with room for a single byte. -/
theorem witness_EscapePairs_full :
    (withRx .esc (List.replicate 1036 0x11)).rx.rxBuf.length = dp.rxCap ∧
    (withRx .esc (List.replicate 1035 0x11)).rx.rxBuf.length + 1 = dp.rxCap := by
  simp only [withRx, List.length_replicate]; decide
theorem witness_SymbolsRunByteByByte :
    Instr.flag.port = .link ∧ Instr.flag.wellFormed State.reset.params = true ∧ (Instr.literal 0xFF).port = .link ∧
    (Instr.literal 0xFF).wellFormed State.reset.params = true := by decide
theorem witness_ReportsChangeOnlyTheDeframer : ((withRx .inFrame [0x55]).takeByte 0x7E).rxEvent = some .malformed := by
  decide
theorem witness_LinkSymbolsFrame : Instr.escEsc.port = .link ∧ ∃ t, exec .escEsc (withRx .inFrame []) = .next t :=
  ⟨rfl, _, rfl⟩
theorem witness_EncodedFramesAreReceived : encodeFrame dp [] = .ok (frameOf dp []) := encodeFrame_fits (Nat.zero_le _)
/-- HUNT, an empty frame, the middle of a frame and a pending escape (Y4 to Y6). -/
theorem witness_DeframerResynchronises :
    encodeFrame dp [0x06, 0x02, 0x00, 0x03, 0x00] = .ok (frameOf dp [0x06, 0x02, 0x00, 0x03, 0x00]) ∧
    Deframer.Inv dp .fresh ∧ Deframer.Inv dp ⟨.inFrame, []⟩ ∧ Deframer.Inv dp ⟨.inFrame, [0x11, 0x22]⟩ ∧
    Deframer.Inv dp ⟨.esc, [0x11, 0x22, 0x33]⟩ ∧ ([0x11, 0x22] : Bytes) ≠ [] :=
  ⟨encodeFrame_fits (by decide), ⟨fun _ => rfl, by decide⟩, ⟨by decide, by decide⟩, ⟨by decide, by decide⟩,
    ⟨by decide, by decide⟩, by decide⟩
/-- One byte that reports, and a pair whose second byte does not fit. -/
theorem witness_EventsAreNotLatched :
    nextIs (step { withRx .inFrame [0x55] with inputs := [.linkByte 0x7E] })
      (fun t => decide (t.rxEvent = some .malformed)) = true ∧
    nextIs (step { withRx .inFrame [0x11, 0x22] with
        params := { dp with maxCmdLen := 0 }, inputs := [.linkByte 0x7D, .linkByte 0x5E] })
      (fun t => decide (t.rxEvent = some .frameTooLong)) = true := by decide
theorem witness_EventsAreNotLatched_others :
    ({ State.reset with inputs := [.tick] } : State).inputs.head? ≠ some .serve ∧
    ({ State.reset with inputs := [.tick] } : State).inputs.head? ≠ some .settle := by decide
theorem witness_DeliveredFramesHaveMatchingCrc :
    nextIs (step { withRx .inFrame [0xFF, 0xFF] with inputs := [.linkByte 0x7E] })
      (fun t => decide (t.rxEvent = some (.frame []))) = true := by decide +kernel
/-- A refused command, an accepted one, and one sent while bytes are queued. -/
theorem witness_CommandsAreSerializedAndQueued :
    validate dp (.read 0 1 0) = some .badCount ∧ validate dp (.read 0 1 256) = none ∧ State.reset.txQueue = [] ∧
    (layout dp (.read 0 1 256)).length ≤ dp.maxCmdLen ∧
    ({ State.reset with txQueue := [0x7E] } : State).txQueue ≠ [] ∧
    sendable dp (.read 0 1 256) = true ∧ sendable dp (.ack 0x03 0x0A) = true ∧ sendable dp (.ack 0x03 0x0B) = false := by
  decide
/-- The first reserved value and the last. -/
theorem witness_SendableIsAllButReservedErr :
    0x0B ≤ (0x0B : Byte).toNat ∧ 0x0B ≤ (0xFF : Byte).toNat ∧ sendable dp (.ack 0x01 0xFF) = false := by decide
/-- The largest command Validate accepts, in an admissible build. -/
theorem witness_CommandsAreSerializedAndQueued_largest :
    State.reset.params.admissible ∧ validate dp (.readResp 0xFFFFFC00 4 256 fullValues) = none :=
  ⟨dp_admissible, validateValues_none.2 ⟨by decide, by decide, fullValues_length, by decide⟩⟩
theorem witness_RequestsOpenAnExchange :
    (Command.echo [0xA5]).requested = some (.echo .request [0xA5]) ∧ State.reset.session = .idle ∧
    validate dp (.echo []) = some .badPayloadLen ∧ validate dp (.echo [0xA5]) = none ∧ State.reset.txQueue = [] ∧
    State.reset.params.admissible ∧ ({ State.reset with txQueue := [0x7E] } : State).txQueue ≠ [] ∧
    (awaits (.echo [0xA5])).session ≠ .idle := by decide
theorem witness_EchoIsAcknowledged :
    State.reset.params.admissible ∧ State.reset.txQueue = [] ∧ 1 ≤ (List.replicate 1031 (0x7E : Byte)).length ∧
    (List.replicate 1031 (0x7E : Byte)).length ≤ State.reset.params.echoMax := by
  rw [List.length_replicate]; decide
theorem witness_ReadIsAnsweredWithElements :
    State.reset.params.admissible ∧ State.reset.txQueue = [] ∧
    validate State.reset.params (.read 0xFFFFFC00 4 256) = none ∧ State.reset.targetAnswer = none := by decide
/-- The last elements below 2^32. -/
theorem witness_WriteStoresElements :
    State.reset.params.admissible ∧ State.reset.txQueue = [] ∧ Memory.wf State.reset.mem ∧
    validate State.reset.params (.write 0xFFFFFFFC 2 2 [0x7D, 0x7E, 0x34, 0x12]) = none ∧
    State.reset.targetAnswer = none ∧ (0xFFFFFFFC : U32).toNat + (2 : U16).toNat * (2 : Byte).toNat ≤ 2 ^ 32 := by decide
theorem witness_SetclrModifiesMaskedBits :
    State.reset.params.admissible ∧ State.reset.txQueue = [] ∧ Memory.wf State.reset.mem ∧
    validate State.reset.params (.setclr 0xFFFFFFFF 1 [0x0F] [0x05]) = none ∧ State.reset.targetAnswer = none := by decide
/-- Validate refuses; the target refuses. -/
theorem witness_FailedRequestsAreNacked :
    State.reset.params.admissible ∧ State.reset.txQueue = [] ∧ isRequest (.read 0x1001 4 1) = true ∧
    validate State.reset.params (.read 0x1001 4 1) = some .notAligned ∧
    validate State.reset.params (.read 0x1000 4 1) = none ∧
    ({ State.reset with targetAnswer := some .badAddr } : State).targetAnswer = some .badAddr := by decide
theorem witness_WrongWayCommandsAreNacked : State.reset.params.admissible ∧ State.reset.txQueue = [] := by decide
/-- The empty command, by the responder and by the session. -/
theorem witness_UndeserializableFramesAreNacked :
    deserialize State.reset.params [] = .error .badCmdLen ∧ DesError.badCmdLen ≠ .badCmd ∧
    deserialize State.reset.params [0x06, 0x03, 0x00, 0x01, 0x00, 0x00] = .error .badPayloadLen ∧
    ({ State.reset with rxEvent := some (.frame []), inputs := [.serve] } : State).rxEvent = some (.frame []) ∧
    State.reset.txQueue = [] ∧ State.reset.params.admissible := by decide
/-- The session about to take a frame that does not deserialise. -/
theorem witness_UndeserializableFramesAreNacked_session :
    ({ awaits (.echo [0xA5]) with rxEvent := some (.frame [0x06, 0x03, 0x00, 0x01, 0x00, 0x00]), inputs := [.settle] } : State).rxEvent
      = some (.frame [0x06, 0x03, 0x00, 0x01, 0x00, 0x00]) ∧
    ({ awaits (.echo [0xA5]) with rxEvent := some (.frame [0x06, 0x03, 0x00, 0x01, 0x00, 0x00]), inputs := [.settle] } : State).inputs
      = .settle :: [] ∧
    deserialize (awaits (.echo [0xA5])).params [0x06, 0x03, 0x00, 0x01, 0x00, 0x00] = .error .badPayloadLen ∧
    DesError.badPayloadLen ≠ .badCmd := by decide
/-- A busy responder, and a transport report taken by either end. -/
theorem witness_UndeserializableFramesAreNacked_reports :
    ({ State.reset with rxEvent := some .crcMismatch, inputs := [.serve], txQueue := [0x7E] } : State).rxEvent
      = some .crcMismatch ∧
    ({ State.reset with rxEvent := some .frameTooLong, inputs := [.settle] } : State).inputs = .settle :: [] ∧
    ({ State.reset with rxEvent := some (.frame []), inputs := [.serve], txQueue := [0x7E] } : State).txQueue ≠ [] := by
  decide
theorem witness_BusyResponderIsRefused : ({ State.reset with txQueue := [0x7E] } : State).txQueue ≠ [] := by decide
theorem witness_SessionMatchesAckByReq : State.reset.session = .idle ∧
    (awaits (.echo [0xA5])).session = .awaiting (.echo [0xA5]) 10 ∧ (0x03 : Byte) ≠ (Command.echo [0xA5]).code ∧
    (0x05 : Byte) ≠ State.reset.params.errCode.ok ∧ (Command.read 0 1 1).code = readCode ∧
    (Command.echo [0xA5]).code ≠ readCode := by decide
theorem witness_SessionMatchesReadRespByFields : State.reset.session = .idle ∧
    (awaits (.read 0x40001000 4 2)).session = .awaiting (.read 0x40001000 4 2) 10 ∧
    Command.read 0x40001000 4 2 = .read 0x40001000 4 2 ∧ Command.read 0x40001000 4 2 ≠ .read 0x40001000 4 1 := by decide
theorem witness_SessionDropsRequests : isRequest (.read 0x40001000 4 2) = true := by decide
theorem witness_TimerExpiryEndsTheExchange :
    ({ awaits (.echo [0xA5]) with inputs := [.tick] } : State).inputs = .tick :: [] ∧
    (awaits (.echo [0xA5])).session = .awaiting (.echo [0xA5]) 10 ∧ 1 ≤ 1 ∧ 1 < 10 := by decide
/-- Each of the three ways out of an exchange. -/
theorem witness_OnlyTheseEventsEndAnExchange :
    nextIs (step { awaits (.echo [0xA5]) with inputs := [.reset] }) (fun t => decide (t.session = .idle)) = true ∧
    nextIs (step { awaits (.echo [0xA5]) with session := .awaiting (.echo [0xA5]) 1, inputs := [.tick] })
      (fun t => decide (t.session = .idle)) = true ∧
    nextIs (step { awaits (.echo [0xA5]) with
        rxEvent := some (.frame [0x06, 0x02, 0x00, 0x01, 0x00]), inputs := [.settle] })
      (fun t => decide (t.session = .idle)) = true := by decide
/-- The last sector of the window; a length of no whole sector; one byte beyond the window; nothing to write. -/
theorem witness_FlashUpdateChunks :
    (0xFF0000 + 0x10000 ≤ 2 ^ 24 ∧ 0x10000 % 0x10000 = 0 ∧ 0 < 0x10000) ∧ ¬ (0 + 0x400 ≤ 2 ^ 24 ∧ 0x400 % 0x10000 = 0) ∧
    ¬ (0xFF0001 + 0x10000 ≤ 2 ^ 24 ∧ 0x10000 % 0x10000 = 0) ∧ 2 ^ 24 ≤ 2 ^ 24 ∧ State.reset.session = .idle ∧
    State.reset.flash = [] := by decide
/-- A source that is too short, and one of exactly the length. -/
theorem witness_FlashUpdateChunks_source :
    ([0x11] : Bytes).length < 0x10000 ∧ 0x10000 ≤ (List.replicate 0x10000 (0x11 : Byte)).length := by
  rw [List.length_replicate]; decide
theorem witness_FlashUpdateSendsNextChunk :
    ({ State.reset with inputs := [.flashNext], flash := [.write 0 4 256 []] } : State).flash = .write 0 4 256 [] :: [] := by
  decide
theorem witness_ResetAndFlushInputs :
    ({ State.reset with inputs := [.reset] } : State).inputs = .reset :: [] ∧
    ({ State.reset with inputs := [.rxFlush] } : State).inputs = .rxFlush :: [] := by decide
theorem witness_EveryStepKeepsInvariant : State.reset.Inv ∧ ∃ t, step State.reset = .next t :=
  ⟨⟨⟨fun _ => rfl, Nat.zero_le _⟩, Nat.zero_le _, reset_mem_wf, trivial, by simp [State.reset]⟩, _, rfl⟩
theorem witness_ParametersNeverChange : ∃ t, step { State.reset with inputs := [.reset] } = .next t := ⟨_, rfl⟩
/-- One byte and a pair, with another link byte behind. -/
theorem witness_StepRunsLinkSymbol :
    (Instr.literal 0x41).port = .link ∧ (Instr.literal 0x41).wellFormed State.reset.params = true ∧
    ({ State.reset with inputs := [.linkByte 0x41, .linkByte 0x7D] } : State).inputs =
      (encode State.reset.params (.literal 0x41)).map Input.linkByte ++ [.linkByte 0x7D] ∧
    ({ State.reset with inputs := [.linkByte 0x7D, .linkByte 0x5E] } : State).inputs =
      (encode State.reset.params .escFlag).map Input.linkByte ++ [] := by decide
/-- An escape byte with no link byte behind it, and one before a FLAG. -/
theorem witness_StepRunsLinkSymbol_escape :
    ({ State.reset with inputs := [.linkByte 0x7D, .tick] } : State).inputs = .linkByte 0x7D :: [.tick] ∧
    (∀ b, ([.tick] : List Input).head? = some (.linkByte b) → b = 0x7E) ∧
    ([.linkByte 0x7E] : List Input).head? = some (.linkByte 0x7E) := by simp
theorem witness_StepRunsCommands :
    decode State.reset.params (.frame .serve) [0x01, 0x01, 0x00, 0xA5] = .ok (.echo (.receive .serve) [0xA5], []) ∧
    decode State.reset.params (.frame .settle) [0x06, 0x02, 0x00, 0x01, 0x00] = .ok (.ack (.receive .settle) 1 0, []) ∧
    State.reset.flash = [] ∧ ({ State.reset with flash := [.write 0 4 256 []] } : State).flash ≠ [] := by decide
/-- An idle end with a partial frame in the deframer. -/
theorem witness_QuiescentMachineRests :
    (withRx .esc [0x06, 0x02]).quiescent = true ∧ (withRx .esc [0x06, 0x02]).rxEvent = none := by decide
theorem witness_PresentedInstructionRuns :
    (Instr.write (.receive .serve) 0 1 1 [0x7E]).wellFormed State.reset.params = true ∧
    (Instr.readResp .transmit 0 1 1 [0x7E]).wellFormed State.reset.params = true := by decide
theorem witness_RxAndTxAreIndependent :
    Instr.flag.port = .link ∧ State.reset.rx = ({ State.reset with txQueue := [0x7E] } : State).rx ∧
    ∃ t, exec .flag State.reset = .next t := ⟨rfl, rfl, _, rfl⟩
/-- A change of the target's own, and a WRITE the responder carries out. -/
theorem witness_OnlyWritesAndSetclrsChangeRegisters :
    nextIs (step { State.reset with inputs := [.targetChange 0 0x01] }) (fun t => decide (t.mem ≠ State.reset.mem)) = true ∧
    nextIs (step { State.reset with
        rxEvent := some (.frame [0x03, 0x08, 0x00, 0x03, 0x00, 0x00, 0x00, 0x01, 0x01, 0x00, 0x7E]), inputs := [.serve] })
      (fun t => decide (t.mem = [(3, 0x7E)])) = true := by decide +kernel

end Sys2Proof.Tests
end

section
/-! The refusals of a step (00_scope.md R13): what each shared operation can be refused for, then the inversion of a refused
step, beside `step_effect` for one that goes on. -/

namespace Sys2Proof.Machine

/-! ### What the shared operations are refused for -/

/-- No step faults (60_exceptions.md): `Fault` is empty. -/
theorem outcome_next_or_refused (o : StepOutcome) : (∃ t, o = .next t) ∨ ∃ r, o = .refused r := by
  cases o with
  | next t => exact .inl ⟨t, rfl⟩
  | fault f => cases f
  | refused r => exact .inr ⟨r, rfl⟩

theorem State.txStart_refused {s : State} {x : Bytes} {r : Refusal} (h : s.txStart x = .refused r) :
    r = .txBusy ∧ s.txBusy = true := by
  rcases s.txStart_cases x with ⟨hb, he⟩ | ⟨-, -, he⟩ | ⟨-, -, he⟩ <;> rw [he] at h <;> cases h
  exact ⟨rfl, hb⟩

theorem request_refused {c : Command} {s : State} {r : Refusal} (h : request c s = .refused r) :
    (r = .callerBlocked ∧ s.session ≠ .idle) ∨ (r = .txBusy ∧ s.txBusy = true) := by
  rcases request_cases c s with ⟨hs, he⟩ | ⟨-, hb, he⟩ | ⟨-, e, he⟩ | ⟨-, -, -, -, he⟩ <;> rw [he] at h <;> cases h
  · exact .inl ⟨rfl, hs⟩
  · exact .inr ⟨rfl, hb⟩

theorem State.flashBegin_refused {s : State} {off len : Nat} {src : Bytes} {r : Refusal}
    (h : s.flashBegin off len src = .refused r) :
    (r = .callerBlocked ∧ (s.session ≠ .idle ∨ s.flash ≠ [])) ∨
    (r = .flashPrecondition ∧ flashAllowed off len = false) := by
  unfold State.flashBegin at h
  split at h
  · next hb => cases h; exact .inl ⟨rfl, hb⟩
  · split at h
    · next hf => cases h; exact .inr ⟨rfl, by simpa using hf⟩
    · split at h <;> cases h

/-- The one command that may not be handed over for sending (30_encoding.md R98; U3). -/
theorem sendable_eq_false {p : Params} {c : Command} (h : sendable p c = false) :
    ∃ req err, c = .ack req err ∧ reservedErr p err = true := by
  cases c with
  | ack req err => exact ⟨req, err, rfl, by simpa [sendable] using h⟩
  | _ => cases h

/-! ### Received commands -/

/-- Serving a request ends in one answer, sent after the access changed at most the register space (R238). -/
theorem serve_sends {c : Command} {f : State → State × Command} {s : State} (hf : ∃ m, (f s).1 = s.setMem m) :
    ∃ m answer, serve c f s = transmit answer (s.setMem m) := by
  rcases serve_cases c f s with ⟨e, -, he⟩ | ⟨-, he⟩
  · exact ⟨s.mem, _, he⟩
  · obtain ⟨m, hm⟩ := hf
    exact ⟨m, _, by rw [he, hm]⟩

/-- The responder answers every command it takes (R238). -/
theorem exec_served (c : Command) (s : State) :
    ∃ m answer, exec (c.received .serve) s = transmit answer (s.setMem m) := by
  cases c with
  | echo d => exact serve_sends ⟨s.mem, rfl⟩
  | read a w n => exact serve_sends (targetAccess_state ⟨s.mem, rfl⟩)
  | write a w n v => exact serve_sends (targetAccess_state ⟨_, rfl⟩)
  | setclr a w m v => exact serve_sends (targetAccess_state ⟨_, rfl⟩)
  | readResp a w n v => exact ⟨s.mem, ackOf s.params readRespCode .badCmd, rfl⟩
  | ack q e => exact ⟨s.mem, ackOf s.params ackCode .badCmd, rfl⟩

/-- The session takes or drops every command, and goes on (60_exceptions.md R288). -/
theorem exec_settled (c : Command) (s : State) : ∃ t, exec (c.received .settle) s = .next t := by
  cases c <;> exact ⟨_, rfl⟩

/-- A received frame, reserved `cmd` included, stops the machine only where the responder's answer finds the queue busy. -/
theorem exec_received_refused {p : Params} {u : RecvUse} {x : Bytes} {i : Instr} {s : State} {r : Refusal}
    (hd : decodeFrame p u x = .ok i) (h : exec i s = .refused r) : r = .txBusy ∧ s.txBusy = true := by
  rcases decodeFrame_cases hd with ⟨c, -, rfl⟩ | ⟨b, pl, rfl⟩
  · cases u with
    | serve =>
      obtain ⟨m, answer, he⟩ := exec_served c s
      exact transmit_refused (s := s.setMem m) (he ▸ h)
    | settle =>
      obtain ⟨t, he⟩ := exec_settled c s
      rw [he] at h; cases h
  · cases u with
    | serve => exact transmit_refused (c := ackOf s.params b .badCmd) h
    | settle => cases h

/-! ### Transactions -/

/-- Everything a transaction can be refused for. -/
theorem transact_refused {a : Act} {s : State} {r : Refusal} (h : transact a s = .refused r) :
    (r = .txBusy ∧ s.txBusy = true) ∨
    (r = .callerBlocked ∧ (a = .blocked ∨ s.session ≠ .idle ∨ s.flash ≠ [])) ∨
    (r = .flashPrecondition ∧ ∃ off len src, a = .flashUpdate off len src ∧ flashAllowed off len = false) := by
  cases a with
  | txStart x => exact .inl (State.txStart_refused h)
  | flashUpdate off len src =>
    rcases State.flashBegin_refused h with ⟨hr, hb⟩ | ⟨hr, hf⟩
    · exact .inr (.inl ⟨hr, .inr hb⟩)
    · exact .inr (.inr ⟨hr, off, len, src, rfl, hf⟩)
  | rejected u x e =>
    cases u with
    | serve => exact .inl (transmit_refused (c := ackOf s.params (x.headD 0x00) e.code) h)
    | settle => cases h
  | blocked => cases h; exact .inr (.inl ⟨rfl, .inl rfl⟩)
  | _ => cases h

/-! ### The step -/

/-- What is taken from the ports leaves `tx_busy` as it is (10_state.md R27). -/
theorem Taken.txBusy {s u : State} (h : Taken s u) : u.txBusy = s.txBusy := by
  simp only [State.txBusy, h.txQueue]

/-- A FlashUpdate with Writes left after a fetch had some before it. -/
theorem Taken.flash_ne_nil {s u : State} (h : Taken s u) (hu : u.flash ≠ []) : s.flash ≠ [] := by
  rcases h.flash with e | ⟨c, e⟩
  · exact e ▸ hu
  · simp [e]

/-- What can be said of a busy transmitter after the fetch could be said before it. -/
theorem Taken.misuse_txBusy {s u : State} {r : Refusal} (ht : Taken s u) (h : r = .txBusy ∧ u.txBusy = true) :
    s.Misuse r := by
  obtain ⟨rfl, hb⟩ := h
  exact ht.txBusy.symm.trans hb

/-- A fetched instruction is refused for a misuse of its caller: by the port it was fetched from. -/
theorem fetch_instr_refused {s u : State} {i : Instr} {r : Refusal} (hf : fetch s = .instr i u) (ht : Taken s u)
    (h : exec i u = .refused r) : s.Misuse r := by
  rcases fetch_instr hf with ⟨b, rest, l, hi, hd⟩ | ⟨c, rfl, hc⟩ | ⟨c, hc⟩ | ⟨v, x, -, hd, -⟩
  · obtain ⟨w, hw⟩ := linkWindow_cons b rest
    rw [hi, hw] at hd
    rcases exec_symbol_cases (decodeSymbol_head hd).2.2 with ⟨_, -, he⟩ | ⟨_, -, he⟩ <;> rw [he] at h <;> cases h
  · cases hs : sendable u.params c with
    | true => exact ht.misuse_txBusy (transmit_refused (exec_transmitted hs ▸ h))
    | false =>
      obtain ⟨req, err, rfl, herr⟩ := sendable_eq_false hs
      rw [exec_transmitted_refused hs] at h
      cases h
      exact ⟨req, err, hc, ht.params ▸ herr⟩
  · rcases request_refused ((exec_requested hc u).1 ▸ h) with ⟨rfl, hs⟩ | hb
    · exact .inl (ht.session ▸ hs)
    · exact ht.misuse_txBusy hb
  · exact ht.misuse_txBusy (exec_received_refused hd h)

/-- A fetched transaction is refused for a misuse of its caller. -/
theorem fetch_act_refused {s u : State} {a : Act} {r : Refusal} (hf : fetch s = .act a u) (ht : Taken s u)
    (h : transact a u = .refused r) : s.Misuse r := by
  obtain ⟨-, -, -, -, hflash, hblocked⟩ := fetch_act hf
  rcases transact_refused h with hb | ⟨rfl, ha | hs | hu⟩ | ⟨rfl, off, len, src, ha, hp⟩
  · exact ht.misuse_txBusy hb
  · exact .inr (hblocked ha)
  · exact .inl (ht.session ▸ hs)
  · exact .inr (ht.flash_ne_nil hu)
  · exact ⟨off, len, src, (hflash off len src ha).1, hp⟩

/-- The inversion of a refused step (R13). -/
theorem step_refused {s : State} {r : Refusal} (h : step s = .refused r) : s.Misuse r := by
  have ht := fetch_taken s
  unfold step at h
  cases hf : fetch s with
  | instr i u =>
    rw [hf] at h ht
    exact fetch_instr_refused hf ht h
  | act a u =>
    rw [hf] at h ht
    exact fetch_act_refused hf ht h

/-- Settles O56: no step faults, and a refused step is one whose caller misused the block. -/
theorem onlyMisuseStopsTheMachine : Obligations.OnlyMisuseStopsTheMachine := by
  intro s
  rcases outcome_next_or_refused (step s) with hn | ⟨r, hr⟩
  · exact .inl hn
  · exact .inr ⟨r, hr, step_refused hr⟩

end Sys2Proof.Machine
end

section
/-! The state as a whole: the values after reset (10_state.md R30), what every step keeps (R20, R25, R26), and the instruction
that a step takes where it was placed (R32). -/

namespace Sys2Proof.Machine

/-! ### Reset -/

/-- R25 holds of the receive state that reset, RxFlush and every report install. -/
theorem Deframer.fresh_inv (p : Params) : Deframer.Inv p .fresh := ⟨fun _ => rfl, Nat.zero_le _⟩

/-- Settles O47: each value is the one `State.reset` gives, and an empty queue is not busy. -/
theorem resetValues : Obligations.ResetValues :=
  ⟨rfl, rfl, rfl, State.txBusy_false rfl, rfl, rfl⟩

/-- Settles O49: the receive state is fresh, and the queue, the register space, the session and FlashUpdate's list are empty. -/
theorem resetMeetsInvariant : Obligations.ResetMeetsInvariant where
  rx := Deframer.fresh_inv _
  tx := Nat.zero_le _
  mem := reset_mem_wf
  session := trivial
  flash := List.forall_mem_nil _

/-! ### What every step keeps -/

theorem Effect.params {s t : State} (h : Effect s t) : t.params = s.params := by
  cases h with
  | emit => exact s.txEmit_params
  | finished r => exact s.finish_params r
  | _ => rfl

/-- Settles O51: neither what a step takes from the ports nor its effect touches the parameters. -/
theorem parametersNeverChange : Obligations.ParametersNeverChange := by
  intro s t h
  obtain ⟨u, taken, effect⟩ := step_effect h
  exact effect.params.trans taken.params

/-- Taking what a step runs keeps the invariant: at most a Write of FlashUpdate's list goes. -/
theorem Taken.inv {s u : State} (h : Taken s u) (hi : s.Inv) : u.Inv where
  rx := by rw [h.rx, h.params]; exact hi.rx
  tx := by rw [h.txQueue, h.params]; exact hi.tx
  mem := by rw [h.mem]; exact hi.mem
  session := by rw [h.session, h.params]; exact hi.session
  flash := by
    intro c hc
    rcases h.flash with e | ⟨d, e⟩
    · exact hi.flash c (e ▸ hc)
    · exact hi.flash c (e ▸ List.mem_cons_of_mem d hc)

theorem State.txEmit_inv {s : State} (hi : s.Inv) : s.txEmit.Inv := by
  rcases s.txEmit_cases with e | ⟨b, q, hq, e⟩ <;> rw [e]
  · exact hi
  · have hlen : q.length ≤ s.txQueue.length := by simp [hq]
    exact { hi with tx := hlen.trans hi.tx }

theorem State.finish_inv {s : State} (hi : s.Inv) (r : Result) : (s.finish r).Inv := by
  rcases s.finish_cases r with e | e <;> rw [e]
  · exact { hi with session := trivial }
  · exact { hi with session := trivial, flash := List.forall_mem_nil _ }

/-- Everything a step can do keeps the invariant; each case names the parts of the state it writes. -/
theorem Effect.inv {s t : State} (h : Effect s t) (hi : s.Inv) : t.Inv := by
  cases h with
  | same => exact hi
  | byte b => exact { hi with rx := Deframer.step_inv hi.rx b }
  | pair c _ => exact { hi with rx := Deframer.step_inv (Deframer.step_inv hi.rx 0x7D) c }
  | emit => exact State.txEmit_inv hi
  | answer r => exact { hi with }
  | send m x r hm _ hx => exact { hi with tx := frameOf_rawCap hx, mem := hm hi.mem }
  | change m r hm => exact { hi with mem := hm hi.mem }
  | opened c _ hr hv _ hx => exact { hi with tx := frameOf_rawCap hx, session := ⟨hr, hv⟩ }
  | finished r => exact State.finish_inv hi r
  | ticked c n hs =>
    have hc : (Session.awaiting c n).Inv s.params := hs ▸ hi.session
    exact { hi with session := hc }
  | flash cs hcs _ => exact { hi with flash := hcs }
  | flush => exact { hi with rx := Deframer.fresh_inv _ }
  | reset =>
    exact { hi with
      rx := Deframer.fresh_inv _, tx := Nat.zero_le _, session := trivial, flash := List.forall_mem_nil _ }
  | target e => exact { hi with }

/-- Settles O50: the invariant is kept by what a step takes from the ports, then by its effect. -/
theorem everyStepKeepsInvariant : Obligations.EveryStepKeepsInvariant := by
  intro s t hi h
  obtain ⟨u, taken, effect⟩ := step_effect h
  exact effect.inv (taken.inv hi)

/-! ### What an instruction is -/

/-- Every instruction is a command sent, requested or received, a reserved `cmd` received, or a link symbol. -/
theorem Instr.form_cases : ∀ i : Instr,
    (∃ c : Command, i = c.transmitted) ∨ (∃ c : Command, c.requested = some i) ∨
    (∃ (c : Command) (u : RecvUse), i = c.received u) ∨ (∃ u cmd pl, i = .reservedCmd u cmd pl) ∨ i.port = .link
  | .echo .transmit d => .inl ⟨.echo d, rfl⟩
  | .read .transmit a w n => .inl ⟨.read a w n, rfl⟩
  | .write .transmit a w n v => .inl ⟨.write a w n v, rfl⟩
  | .setclr .transmit a w m v => .inl ⟨.setclr a w m v, rfl⟩
  | .readResp .transmit a w n v => .inl ⟨.readResp a w n v, rfl⟩
  | .ack .transmit q e => .inl ⟨.ack q e, rfl⟩
  | .echo .request d => .inr (.inl ⟨.echo d, rfl⟩)
  | .read .request a w n => .inr (.inl ⟨.read a w n, rfl⟩)
  | .write .request a w n v => .inr (.inl ⟨.write a w n v, rfl⟩)
  | .setclr .request a w m v => .inr (.inl ⟨.setclr a w m v, rfl⟩)
  | .echo (.receive u) d => .inr (.inr (.inl ⟨.echo d, u, rfl⟩))
  | .read (.receive u) a w n => .inr (.inr (.inl ⟨.read a w n, u, rfl⟩))
  | .write (.receive u) a w n v => .inr (.inr (.inl ⟨.write a w n v, u, rfl⟩))
  | .setclr (.receive u) a w m v => .inr (.inr (.inl ⟨.setclr a w m v, u, rfl⟩))
  | .readResp (.receive u) a w n v => .inr (.inr (.inl ⟨.readResp a w n v, u, rfl⟩))
  | .ack (.receive u) q e => .inr (.inr (.inl ⟨.ack q e, u, rfl⟩))
  | .reservedCmd u cmd pl => .inr (.inr (.inr (.inl ⟨u, cmd, pl, rfl⟩)))
  | .flag => .inr (.inr (.inr (.inr rfl)))
  | .escFlag => .inr (.inr (.inr (.inr rfl)))
  | .escEsc => .inr (.inr (.inr (.inr rfl)))
  | .escOther _ => .inr (.inr (.inr (.inr rfl)))
  | .literal _ => .inr (.inr (.inr (.inr rfl)))

/-! ### Decoding what was encoded -/

@[simp] theorem Command.encode_received (p : Params) (c : Command) (u : RecvUse) :
    encode p (c.received u) = layout p c := by cases c <;> rfl

@[simp] theorem Command.received_wellFormed (p : Params) (c : Command) (u : RecvUse) :
    (c.received u).wellFormed p = c.transmitted.wellFormed p := by cases c <;> rfl

/-- The payload stands after the three header bytes (30_encoding.md R80). -/
@[simp] theorem withHeader_drop (p : Params) (cmd : Byte) (pl : Bytes) : (withHeader p cmd pl).drop hdrSize = pl :=
  List.drop_left' (by simp [hdrSize])

/-- Deserialize's BadCmd is the row RESERVED_CMD, with the `cmd` byte and the payload as received (R202). -/
theorem decodeFrame_reserved {p : Params} {u : RecvUse} {cmd : Byte} {pl : Bytes}
    (h : (Instr.reservedCmd u cmd pl).wellFormed p = true) :
    decodeFrame p u (withHeader p cmd pl) = .ok (.reservedCmd u cmd pl) := by
  simp only [Instr.wellFormed, Bool.and_eq_true] at h
  obtain ⟨hcmd, hlen⟩ := h
  have hd : deserialize p (withHeader p cmd pl) = .error .badCmd :=
    (deserialize_withHeader hlen).trans (desVariant_reserved hcmd)
  simp only [decodeFrame, hd, withHeader_drop]
  rfl

/-- A raw byte that is neither FLAG nor ESC stands for itself (R82). -/
theorem decodeSymbol_literal {p : Params} {b : Byte} (h : (Instr.literal b).wellFormed p = true) (after : Bytes) :
    decodeSymbol (b :: after) = .ok (.literal b, after) := by
  simp only [Instr.wellFormed, Bool.and_eq_true, decide_eq_true_eq] at h
  obtain ⟨hflag, hesc⟩ := h
  simp only [decodeSymbol, if_neg hflag, if_neg hesc]

/-- An escape byte and any byte but FLAG, `5E` and `5D` is the symbol ESC_OTHER (R99). -/
theorem decodeSymbol_escOther {p : Params} {b : Byte} (h : (Instr.escOther b).wellFormed p = true) :
    decodeSymbol [0x7D, b] = .ok (.escOther b, []) := by
  simp only [Instr.wellFormed, Bool.and_eq_true, decide_eq_true_eq] at h
  obtain ⟨⟨hflag, h5E⟩, h5D⟩ := h
  simp only [decodeSymbol, if_neg hflag, if_neg h5E, if_neg h5D]
  rfl

/-! ### Fetching what was placed -/

/-- A frame on the event port that decodes is taken as the instruction it is. -/
theorem fetch_pushFrame {s : State} {u : RecvUse} {i : Instr} (h : decodeFrame s.params u (encode s.params i) = .ok i) :
    fetch (s.pushFrame u i) = .instr i (s.advance 0) := by
  have taken : fetch (s.pushFrame u i) = fetchEvent u (some (.frame (encode s.params i))) (s.advance 0) := by
    cases u <;> rfl
  rw [taken]
  simp only [fetchEvent, State.advance_params, h]

/-- A whole link symbol in front of the inputs is taken, with its bytes (log 5). -/
theorem fetch_link {s : State} {b : Byte} {rest : List Input} {i : Instr} {after : Bytes}
    (hs : s.inputs = .linkByte b :: rest) (hd : decodeSymbol (linkWindow s.inputs) = .ok (i, after)) :
    fetch s = .instr i (s.advance ((linkWindow s.inputs).length - after.length)) := by
  have hl : fetch s = fetchLink b s := by simp only [fetch, hs]
  rw [hl]
  simp only [fetchLink, decode, hd]

/-- A one-byte symbol placed on the link is taken, whatever follows it. -/
theorem fetch_pushByte {s : State} {b : Byte} {i : Instr} (h : ∀ after, decodeSymbol (b :: after) = .ok (i, after)) :
    fetch (s.push (.linkByte b)) = .instr i (s.advance 0) := by
  obtain ⟨after, hw⟩ : ∃ after, linkWindow (s.push (.linkByte b)).inputs = b :: after := linkWindow_cons b s.inputs
  rw [fetch_link rfl (hw ▸ h after), hw, List.length_cons, Nat.add_sub_cancel_left]
  rfl

/-- An escape pair placed on the link is taken whole. -/
theorem fetch_pushPair {s : State} {b c : Byte} {i : Instr} (h : decodeSymbol [b, c] = .ok (i, [])) :
    fetch ((s.push (.linkByte c)).push (.linkByte b)) = .instr i (s.advance 0) :=
  fetch_link (s := (s.push (.linkByte c)).push (.linkByte b)) rfl h

/-- A well-formed link symbol placed on the link is taken. -/
theorem fetch_present_symbol {s : State} {i : Instr} (hp : i.port = .link) (h : i.wellFormed s.params = true) :
    fetch (s.present i) = .instr i (s.advance 0) := by
  rcases exec_symbol_cases hp with ⟨b, ⟨rfl, -⟩ | rfl, -⟩ | ⟨c, ⟨rfl, -⟩ | ⟨rfl, -⟩ | rfl, -⟩
  · exact fetch_pushByte fun _ => rfl
  · exact fetch_pushByte (decodeSymbol_literal h)
  · exact fetch_pushPair rfl
  · exact fetch_pushPair rfl
  · exact fetch_pushPair (decodeSymbol_escOther h)

theorem present_received (s : State) (c : Command) (u : RecvUse) :
    s.present (c.received u) = s.pushFrame u (c.received u) := by cases c <;> rfl

/-- A received command placed on the event port is taken. -/
theorem fetch_present_received {s : State} {c : Command} {u : RecvUse} (h : (c.received u).wellFormed s.params = true) :
    fetch (s.present (c.received u)) = .instr (c.received u) (s.advance 0) := by
  rw [Command.received_wellFormed] at h
  rw [present_received]
  exact fetch_pushFrame (by rw [Command.encode_received, decodeFrame_layout h])

/-- A command placed as the host's call is taken as it is. -/
theorem fetch_present_transmitted (s : State) (c : Command) :
    fetch (s.present c.transmitted) = .instr c.transmitted (s.advance 0) := by cases c <;> rfl

/-- A request placed as the operation's call is taken: placing it leaves no FlashUpdate that would block the caller (R286). -/
theorem fetch_present_requested {c : Command} {i : Instr} (h : c.requested = some i) (s : State) :
    fetch (s.present i) = .instr i (({ s with flash := [] } : State).advance 0) := by
  cases c <;> cases h <;> rfl

/-- Placing a well-formed instruction changes, when the step has taken it again, at most FlashUpdate's list and the event. -/
theorem fetch_present {s : State} {i : Instr} (h : i.wellFormed s.params = true) :
    ∃ cs, fetch (s.present i) = .instr i (({ s with flash := cs } : State).advance 0) := by
  rcases Instr.form_cases i with ⟨c, rfl⟩ | ⟨c, hc⟩ | ⟨c, u, rfl⟩ | ⟨u, cmd, pl, rfl⟩ | hp
  · exact ⟨s.flash, fetch_present_transmitted s c⟩
  · exact ⟨[], fetch_present_requested hc s⟩
  · exact ⟨s.flash, fetch_present_received h⟩
  · exact ⟨s.flash, fetch_pushFrame (decodeFrame_reserved h)⟩
  · exact ⟨s.flash, fetch_present_symbol hp h⟩

/-- Settles O55: the placed instruction is fetched, and the state it runs at differs in FlashUpdate's list and the event
alone. -/
theorem presentedInstructionRuns : Obligations.PresentedInstructionRuns := by
  intro s i h
  obtain ⟨cs, hf⟩ := fetch_present h
  exact ⟨({ s with flash := cs } : State).advance 0, rfl, rfl, rfl, rfl, rfl, rfl, by simp only [step, hf]⟩

end Sys2Proof.Machine
end

section
/-! Where a delivered frame comes from (40_crc.md R124, 42_deframer_rx.md R155), and what can change the register space
(20_memory.md R62). -/

namespace Sys2Proof.Machine

/-! ### Delivered frames -/

/-- The second byte of an escape pair is data, so no pair closes a frame: neither of its bytes is a FLAG (R155, R157). -/
theorem State.takePair_delivers_no_frame (s : State) {c : Byte} (hc : c ≠ flagByte) (data : Bytes) :
    (s.takePair escByte c).rxEvent ≠ some (.frame data) := by
  intro h
  rw [State.takePair_rxEvent, Option.orElse_eq_some] at h
  rcases h with second | ⟨-, first⟩
  · exact hc (Deframer.step_frame second).1
  · exact absurd (Deframer.step_frame first).1 (by decide)

/-- Settles O28: the event is that of one link byte, which closed a frame with a matching CRC; a pair closes none. -/
theorem deliveredFramesHaveMatchingCrc : Obligations.DeliveredFramesHaveMatchingCrc := by
  intro s t data h he
  obtain ⟨u, b, taken, hin, rfl | ⟨c, hc, rfl⟩⟩ := step_event_origin h he
  · obtain ⟨rfl, hstate, hcrc⟩ := Deframer.step_frame he
    have hrx : (u.takeByte flagByte).rx = .fresh := Deframer.step_event he
    rw [taken.rx] at hstate hcrc
    rw [taken.params] at hcrc
    exact ⟨hin, hstate, hrx, hcrc⟩
  · exact absurd he (u.takePair_delivers_no_frame hc data)

/-! ### Changes of the register space -/

/-- The instructions that may change the register space: a WRITE and a SETCLR received by the responder (R233, R234). -/
theorem exec_changes_mem {i : Instr} {s t : State} (h : exec i s = .next t) (hm : t.mem ≠ s.mem) :
    (∃ a w n v, i = .write (.receive .serve) a w n v) ∨ ∃ a w m v, i = .setclr (.receive .serve) a w m v := by
  by_cases hp : i.port = .link
  · rcases exec_symbol_cases hp with ⟨b, -, he⟩ | ⟨c, -, he⟩ <;> rw [he] at h <;> cases h
    · exact absurd (s.takeByte_mem b) hm
    · exact absurd (s.takePair_mem 0x7D c) hm
  · exact (exec_command_frame hp h).mem.resolve_left hm

/-- The inversion of a step that goes on: what was fetched, and that it ran on the state the fetch left. -/
theorem step_next {s t : State} (h : step s = .next t) :
    (∃ i u, fetch s = .instr i u ∧ Taken s u ∧ exec i u = .next t) ∨
    ∃ a u, fetch s = .act a u ∧ Taken s u ∧ transact a u = .next t := by
  have taken := fetch_taken s
  unfold step at h
  cases hf : fetch s with
  | instr i u => rw [hf] at h taken; exact .inl ⟨i, u, rfl, taken, h⟩
  | act a u => rw [hf] at h taken; exact .inr ⟨a, u, rfl, taken, h⟩

/-- Settles O58: the fetch leaves the register space as it is; an instruction that changes a register is a served WRITE or
SETCLR, and a transaction that does is a change of the target's own. -/
theorem onlyWritesAndSetclrsChangeRegisters : Obligations.OnlyWritesAndSetclrsChangeRegisters := by
  intro s t h hm
  rcases step_next h with ⟨i, u, hf, taken, hx⟩ | ⟨a, u, hf, taken, hx⟩ <;> rw [← taken.mem] at hm
  · rcases exec_changes_mem hx hm with ⟨a, w, n, v, rfl⟩ | ⟨a, w, m, v, rfl⟩
    · exact .inr ⟨u, .inl ⟨a, w, n, v, hf⟩⟩
    · exact .inr ⟨u, .inr ⟨a, w, m, v, hf⟩⟩
  · obtain ⟨x, b, rfl⟩ := (transact_frame hx).mem.resolve_left hm
    obtain ⟨-, -, -, origin, -, -⟩ := fetch_act hf
    exact .inl ⟨x, b, origin x b rfl⟩

end Sys2Proof.Machine
end

section
/-! The codec on instructions (30_encoding.md): what decoding gives back of an encoding at each port, the lengths and the tag
of what Deserialize answers (R91, R202), and which commands may be handed over for sending (R98). -/

namespace Sys2Proof.Machine

/-! ### Decoding at each port -/

@[simp] theorem Command.encode_transmitted (p : Params) (c : Command) : encode p c.transmitted = layout p c := by
  cases c <;> rfl

theorem Command.encode_requested {c : Command} {i : Instr} (h : c.requested = some i) (p : Params) :
    encode p i = layout p c := by
  cases c <;> cases h <;> rfl

theorem Command.requested_wellFormed {c : Command} {i : Instr} (h : c.requested = some i) (p : Params) :
    i.wellFormed p = c.transmitted.wellFormed p := by
  cases c <;> cases h <;> rfl

theorem decode_transmit {p : Params} {x : Bytes} {c : Command} (h : deserialize p x = .ok c) :
    decode p .transmit x = .ok (c.transmitted, []) := by
  simp only [decode, h]

theorem decode_request {p : Params} {x : Bytes} {c : Command} {i : Instr} (h : deserialize p x = .ok c)
    (hr : c.requested = some i) : decode p .request x = .ok (i, []) := by
  simp only [decode, h, hr]

theorem decode_frame {p : Params} {u : RecvUse} {x : Bytes} {i : Instr} (h : decodeFrame p u x = .ok i) :
    decode p i.port x = .ok (i, []) := by
  rw [decodeFrame_port h]
  simp only [decode, h]

/-- A well-formed link symbol is read from its raw bytes (R82, R99). -/
theorem decodeSymbol_encode {p : Params} {i : Instr} (hp : i.port = .link) (h : i.wellFormed p = true) :
    decodeSymbol (encode p i) = .ok (i, []) := by
  rcases exec_symbol_cases hp with ⟨b, ⟨rfl, -⟩ | rfl, -⟩ | ⟨c, ⟨rfl, -⟩ | ⟨rfl, -⟩ | rfl, -⟩
  · rfl
  · exact decodeSymbol_literal h []
  · rfl
  · rfl
  · exact decodeSymbol_escOther h

/-- The decoder takes one symbol and does not look behind it: bytes that follow are left over. -/
theorem decodeSymbol_append {x after : Bytes} {i : Instr} (h : decodeSymbol x = .ok (i, after)) (rest : Bytes) :
    decodeSymbol (x ++ rest) = .ok (i, after ++ rest) := by
  cases x with
  | nil => cases h
  | cons b r =>
    simp only [decodeSymbol, List.cons_append] at h ⊢
    split_ifs at h ⊢
    · cases h; rfl
    · cases r with
      | nil => cases h
      | cons c r' =>
        simp only [List.cons_append] at h ⊢
        split_ifs at h ⊢ <;> cases h <;> rfl
    · cases h; rfl

/-- Decoding undoes encoding, by the port the instruction stands at. -/
theorem decode_encode {p : Params} {i : Instr} (h : i.wellFormed p = true) :
    decode p i.port (encode p i) = .ok (i, []) := by
  rcases Instr.form_cases i with ⟨c, rfl⟩ | ⟨c, hc⟩ | ⟨c, u, rfl⟩ | ⟨u, cmd, pl, rfl⟩ | hp
  · rw [Command.transmitted_port, Command.encode_transmitted]
    exact decode_transmit (deserialize_layout h)
  · rw [Command.requested_wellFormed hc] at h
    rw [Command.requested_port hc, Command.encode_requested hc]
    exact decode_request (deserialize_layout h) hc
  · rw [Command.received_wellFormed] at h
    rw [Command.encode_received]
    exact decode_frame (decodeFrame_layout h)
  · exact decode_frame (decodeFrame_reserved h)
  · rw [hp]
    exact decodeSymbol_encode hp h

/-- Settles O1: decoding undoes encoding at every port, and a link symbol's decoding leaves what follows it. -/
theorem decodeInvertsEncode : Obligations.DecodeInvertsEncode :=
  ⟨fun _ _ h => decode_encode h, fun _ _ rest h hp => decodeSymbol_append (decodeSymbol_encode hp h) rest⟩

/-! ### What deserialises -/

/-- A check that reports an error has passed where the whole answers a command. -/
theorem check_passed {P : Prop} [Decidable P] {e : DesError} {r : Except DesError Command} {c : Command}
    (h : (if P then .error e else r) = .ok c) : ¬ P ∧ r = .ok c := by
  split at h
  · cases h
  · next hP => exact ⟨hP, h⟩

/-- What a variant's rule answers carries the variant's tag and has the payload length its fields imply (R91, R202 to R208). -/
theorem desVariant_ok {p : Params} {cmd : Byte} {pl : Bytes} {c : Command} (h : desVariant p cmd pl = .ok c) :
    cmd = c.code ∧ pl.length = c.expectedLen := by
  unfold desVariant at h
  split_ifs at h with echo read write setclr readResp ack
  · obtain ⟨-, ⟨⟩⟩ := check_passed h
    exact ⟨echo, rfl⟩
  · obtain ⟨hlen, ⟨⟩⟩ := check_passed h
    exact ⟨read, not_not.1 hlen⟩
  · obtain ⟨-, h⟩ := check_passed h
    obtain ⟨hlen, ⟨⟩⟩ := check_passed h
    exact ⟨write, not_not.1 hlen⟩
  · obtain ⟨-, h⟩ := check_passed h
    obtain ⟨hlen, ⟨⟩⟩ := check_passed h
    exact ⟨setclr, not_not.1 hlen⟩
  · obtain ⟨-, h⟩ := check_passed h
    obtain ⟨hlen, ⟨⟩⟩ := check_passed h
    exact ⟨readResp, not_not.1 hlen⟩
  · obtain ⟨hlen, ⟨⟩⟩ := check_passed h
    exact ⟨ack, not_not.1 hlen⟩

/-- Settles O9: the three header bytes stand before a payload that its variant's rule took. -/
theorem deserializedLengthIsImplied : Obligations.DeserializedLengthIsImplied := by
  intro p x c h
  obtain ⟨cmd, l0, l1, pl, rfl, -, -, -, hv⟩ := deserialize_ok h nofun
  obtain ⟨rfl, hlen⟩ := desVariant_ok hv
  exact ⟨by simp only [List.length_cons, hlen]; omega, rfl⟩

/-! ### What may be sent -/

theorem ErrorCode.mem_all (e : ErrorCode) : e ∈ ErrorCode.all := by cases e <;> decide

/-- `reservedErr` in its meaning: the value is the code of no named error (R98; log 22). -/
theorem reservedErr_iff {p : Params} {err : Byte} :
    reservedErr p err = true ↔ ∀ e : ErrorCode, p.errCode.byte e ≠ err :=
  decide_eq_true_iff.trans ⟨fun h e => h e (ErrorCode.mem_all e), fun h e _ => h e⟩

theorem sendable_ack {p : Params} {req err : Byte} : sendable p (.ack req err) = !reservedErr p err := rfl

/-- The default numbering gives every name a value up to `0x0A` (R95). -/
theorem ordinal_byte_lt (e : ErrorCode) : (ErrCodes.ordinal.byte e).toNat < 0x0B := by cases e <;> decide

/-- The default numbering leaves no gap: every value up to `0x0A` has a name (R95). -/
theorem exists_ordinal_byte {b : Byte} (h : b.toNat < 0x0B) : ∃ e, ErrCodes.ordinal.byte e = b := by
  have named : ∀ n : Fin 0x0B, ∃ e ∈ ErrorCode.all, (ErrCodes.ordinal.byte e).toNat = n := by decide
  obtain ⟨e, -, he⟩ := named ⟨b.toNat, h⟩
  exact ⟨e, BitVec.eq_of_toNat_eq he⟩

theorem reservedErr_default {err : Byte} : reservedErr Params.default err = true ↔ 0x0B ≤ err.toNat := by
  rw [reservedErr_iff]
  constructor
  · intro h
    by_contra hlt
    obtain ⟨e, he⟩ := exists_ordinal_byte (Nat.lt_of_not_le hlt)
    exact h e he
  · rintro h e rfl
    exact absurd (ordinal_byte_lt e) (Nat.not_lt_of_le h)

/-- Settles O60: an ACK is sendable where its `err` is the code of a named error, and every other command is. -/
theorem sendableIsAllButReservedErr : Obligations.SendableIsAllButReservedErr := by
  refine ⟨fun req err => ?_, fun p req e => ?_, fun p c h => ?_⟩
  · rw [sendable_ack, Bool.not_eq_false', reservedErr_default]
  · rw [sendable_ack, Bool.not_eq_true', Bool.eq_false_iff, ne_eq, reservedErr_iff]
    exact fun h => h e rfl
  · obtain ⟨req, err, rfl, herr⟩ := sendable_eq_false h
    exact ⟨req, err, rfl, reservedErr_iff.1 herr⟩

end Sys2Proof.Machine
end

section
/-! A flipped bit changes the CRC (40_crc.md R121, R125). -/

namespace Sys2Proof.Machine

/-! ### What a byte does to the register -/

/-- Mirroring an input byte or the register (R121) loses nothing. -/
theorem bitVec_reverse_injective (w : Nat) : Function.Injective (BitVec.reverse (w := w)) :=
  Function.LeftInverse.injective fun _ => BitVec.reverse_reverse_eq

/-- The byte as it enters the register: two bytes that agree as the high byte of a word are equal. -/
theorem highByte_injective {a b : Byte} (e : a.setWidth 16 <<< 8 = b.setWidth 16 <<< 8) : a = b := by
  apply BitVec.eq_of_getLsbD_eq
  intro i hi
  have hbit : (a.setWidth 16 <<< 8).getLsbD (8 + i) = (b.setWidth 16 <<< 8).getLsbD (8 + i) := by rw [e]
  have hlt : 8 + i < 16 := by omega
  simpa [hlt] using hbit

/-- With bit 0 of the polynomial set, the byte is determined by the registers before and after it. -/
theorem crcByte_byte_injective {c : CrcParams} (h : c.poly.getLsbD 0 = true) (r : U16) {a b : Byte}
    (e : crcByte c r a = crcByte c r b) : a = b := by
  have reflected : (if c.refIn then a.reverse else a) = if c.refIn then b.reverse else b :=
    highByte_injective ((BitVec.xor_right_inj r).1 (crcShifts_injective h 8 e))
  split at reflected
  · exact bitVec_reverse_injective 8 reflected
  · exact reflected

/-! ### What the CRC keeps of its input -/

/-- The last stage of the CRC, CRC_REFOUT and CRC_XOROUT (R121), loses nothing of the register. -/
theorem crc16_eq_iff {c : CrcParams} {x y : Bytes} :
    crc16 c x = crc16 c y ↔ crcRegister c c.init x = crcRegister c c.init y := by
  unfold crc16
  rw [BitVec.xor_left_inj]
  split
  · exact (bitVec_reverse_injective 16).eq_iff
  · exact Iff.rfl

/-- Where one byte alone may differ, the CRC tells which byte stands there. -/
theorem crc16_byte_injective {c : CrcParams} (h : c.poly.getLsbD 0 = true) (before after : Bytes) {a b : Byte}
    (e : crc16 c (before ++ [a] ++ after) = crc16 c (before ++ [b] ++ after)) : a = b := by
  simp only [crc16_eq_iff, crcRegister_append] at e
  exact crcByte_byte_injective h _ (crcRegister_injective h after e)

/-! ### The flipped bit -/

theorem ne_xor_bit (b : Byte) {k : Nat} (hk : k < 8) : b ≠ b ^^^ (1#8 <<< k) := by
  intro e
  have hbit : b.getLsbD k = (b ^^^ (1#8 <<< k)).getLsbD k := by rw [← e]
  simp [hk] at hbit

/-- Settles O11: the CRC determines the byte that holds the flipped bit, and the flip changes that byte. -/
theorem crcDetectsSingleBitFlip : Obligations.CrcDetectsSingleBitFlip := by
  intro c before after b k h hk e
  exact ne_xor_bit b hk (crc16_byte_injective h before after e)

end Sys2Proof.Machine
end

section
/-! The transmit framer's frames (41_framer_tx.md R133 to R139): their delimiters, their escapes, their length, and that the
deframer gives the command back (42_deframer_rx.md R163). -/

namespace Sys2Proof.Machine

/-! ### The delimiters and the escapes -/

theorem frameOf_head? (p : Params) (x : Bytes) : (frameOf p x).head? = some flagByte := rfl

theorem frameOf_getLast? (p : Params) (x : Bytes) : (frameOf p x).getLast? = some flagByte := List.getLast?_concat

/-- Between its two FLAGs a frame is the stuffed command and CRC (R133). -/
theorem frameOf_inner (p : Params) (x : Bytes) :
    ((frameOf p x).drop 1).dropLast = stuff (x ++ crcBytes p (crc16 p.crc x)) := List.dropLast_concat

/-- Every escape byte of a frame is followed by `5E` or `5D` (R139 (b)): it stands in the stuffed part, and so does the byte
after it. -/
theorem frameOf_escape {p : Params} {x before after : Bytes} (h : frameOf p x = before ++ [escByte] ++ after) :
    after.head? = some 0x5E ∨ after.head? = some 0x5D := by
  rw [List.append_assoc, frameOf, List.append_eq_append_iff] at h
  rcases h with ⟨rest, -, atEnd⟩ | ⟨rest, front, tail⟩
  · have hmem : escByte ∈ [flagByte] := atEnd ▸ by simp
    exact absurd hmem (by decide)
  · cases rest with
    | nil => exact absurd (List.cons.inj tail).1 (by decide)
    | cons b rest =>
      obtain ⟨rfl, rfl⟩ := List.cons.inj tail
      cases before with
      | nil => exact absurd (List.cons.inj front).1 (by decide)
      | cons c before =>
        have inner : stuff (x ++ crcBytes p (crc16 p.crc x)) = before ++ [escByte] ++ rest := by
          simpa using (List.cons.inj front).2
        rcases stuff_escape _ _ _ inner with hr | hr
        · exact .inl (by simp [List.head?_append, hr])
        · exact .inr (by simp [List.head?_append, hr])

/-! ### Decoding a frame -/

/-- After its SOF a frame that fits raises one event, at its closing FLAG: the command (R155, R164). -/
theorem Deframer.run_frameOf_tail {p : Params} {x : Bytes} (h : x.length ≤ p.maxCmdLen) (pos : Nat) :
    Deframer.run p ⟨.inFrame, []⟩ (pos + 1) (frameOf p x).tail =
      (.fresh, [(pos + (frameOf p x).length - 1, .frame x)]) := by
  have fits : ([] : Bytes).length + (x ++ crcBytes p (crc16 p.crc x)).length ≤ p.rxCap := by
    simp only [List.length_nil, List.length_append, crcBytes_length, Params.rxCap, crcSize]
    omega
  have inner := Deframer.run_unstuff [] _ _ (pos + 1) (stuff_noFlag _) (unstuff_stuff _) fits
  have closing : Deframer.step p ⟨.inFrame, x ++ crcBytes p (crc16 p.crc x)⟩ flagByte = (.fresh, some (.frame x)) :=
    (Deframer.step_inFrame_flag _).trans (Deframer.close_matching x)
  have last : pos + 1 + (stuff (x ++ crcBytes p (crc16 p.crc x))).length = pos + (frameOf p x).length - 1 := by
    simp only [frameOf, List.length_append, List.length_singleton]
    omega
  rw [← last, frameOf, List.append_assoc, List.singleton_append, List.tail_cons, Deframer.run_append, inner, List.nil_append,
    Deframer.run_cons_some closing]
  rfl

/-- From reset's receive state a frame that fits raises one event, at its closing FLAG: the command (R139 (c)). -/
theorem Deframer.run_frameOf {p : Params} {x : Bytes} (h : x.length ≤ p.maxCmdLen) (pos : Nat) :
    Deframer.run p .fresh pos (frameOf p x) = (.fresh, [(pos + (frameOf p x).length - 1, .frame x)]) :=
  (Deframer.run_cons_none (Deframer.step_hunt_flag []) pos _).trans (Deframer.run_frameOf_tail h pos)

theorem decodeStream_frameOf {p : Params} {x : Bytes} (h : x.length ≤ p.maxCmdLen) :
    decodeStream p (frameOf p x) = some (.frame x) := by
  rw [decodeStream, Deframer.run_frameOf h]

/-- Settles O12: the two FLAGs enclose the stuffed part, which holds none, and the deframer unstuffs that part and finds the
CRC to match. -/
theorem encodedFramesAreDelimitedAndDecode : Obligations.EncodedFramesAreDelimitedAndDecode := by
  intro p x h
  refine ⟨frameOf p x, encodeFrame_fits h, frameOf_head? p x, frameOf_getLast? p x, ?_, fun _ _ => frameOf_escape,
    decodeStream_frameOf h⟩
  rw [frameOf_inner]
  exact stuff_noFlag _

/-! ### The length of a frame -/

/-- Settles O13: a frame adds two FLAGs, two CRC bytes and one byte for each escape, of which there is at most one for each
byte. -/
theorem frameLength : Obligations.FrameLength := by
  intro p x h
  have lower : x.length + 4 ≤ (frameOf p x).length := frameOf_length p x ▸ Nat.le_add_right _ _
  have capacity : 2 * (x.length + 2) + 2 ≤ p.rawCap := by unfold Params.rawCap crcSize; omega
  exact ⟨frameOf p x, encodeFrame_fits h, lower, frameOf_length_le p x, capacity, frameOf_length p x⟩

end Sys2Proof.Machine
end

section
/-! The transmit side of a step (41_framer_tx.md R136 to R138): TxStart, the queue handed to the link byte by byte, whole
frames on the link, and a responder that finds the queue busy (45_command_contract.md R238). -/

namespace Sys2Proof.Machine

/-! ### TxStart and TxEmit as steps -/

/-- Taking the first input leaves the others and clears the event port (70_reset_and_hazards.md R306). -/
theorem State.advance_one {s : State} {i : Input} {rest : List Input} (h : s.inputs = i :: rest) :
    s.advance 1 = { s with inputs := rest, rxEvent := none } := by
  simp only [State.advance, h, List.drop_one, List.tail_cons]

theorem step_txStart {s : State} {x : Bytes} {rest : List Input} (h : s.inputs = .txStart x :: rest) :
    step s = State.txStart { s with inputs := rest, rxEvent := none } x := by
  simp only [step, fetch, h, transact, State.advance_one h]

theorem step_linkReady {s : State} {rest : List Input} (h : s.inputs = .linkReady :: rest) :
    step s = .next (State.txEmit { s with inputs := rest, rxEvent := none }) := by
  simp only [step, fetch, h, transact, State.advance_one h]

/-- With no input left the block emits by itself (70_reset_and_hazards.md R312). -/
theorem step_idle {s : State} (h : s.inputs = []) : step s = .next (State.txEmit { s with rxEvent := none }) := by
  simp only [step, fetch, h, transact, State.advance, List.drop_zero]

theorem State.txEmit_cons {s : State} {b : Byte} {q : Bytes} (h : s.txQueue = b :: q) :
    s.txEmit = { s with txQueue := q, linkTx := s.linkTx ++ [b] } := by
  simp only [State.txEmit, h]

/-- Settles O15: the step is TxStart on the state without its input, and TxStart does one of three things. -/
theorem txStartRule : Obligations.TxStartRule := by
  intro s x rest h
  rw [step_txStart h]
  rcases State.txStart_cases { s with inputs := rest, rxEvent := none } x with
    ⟨hb, he⟩ | ⟨hq, hx, he⟩ | ⟨hq, hx, he⟩ <;> rw [he]
  · have busy : s.txQueue ≠ [] := (State.txBusy_iff _).1 hb
    exact ⟨fun _ => rfl, fun hq => absurd hq busy, fun hq => absurd hq busy⟩
  · exact ⟨fun busy => absurd hq busy, fun _ _ => rfl, fun _ fits => absurd hx (Nat.not_lt.2 fits)⟩
  · exact ⟨fun busy => absurd hq busy, fun _ long => absurd hx (Nat.not_le.2 long), fun _ _ => rfl⟩

/-! ### The queue drains -/

/-- The host's run goes on from the state that the first step gives. -/
theorem core_run_succ {s t : State} (h : step s = .next t) (k : Nat) :
    Host.Core.run Sys2Proof.core (k + 1) s = Host.Core.run Sys2Proof.core k t := by
  simp only [Host.Core.run, show Sys2Proof.core.step s = .next t from h]

/-- As many idle steps as the queue has bytes hand it to the link, in order (R137). -/
theorem core_run_drains (q : Bytes) (s : State) (hi : s.inputs = []) (hq : s.txQueue = q) :
    Host.Core.run Sys2Proof.core q.length s = .next { s with
      rxEvent := if q = [] then s.rxEvent else none
      txQueue := []
      linkTx := s.linkTx ++ q } := by
  induction q generalizing s with
  | nil =>
    rw [if_pos rfl, List.append_nil, List.length_nil, ← hq]
    rfl
  | cons b q ih =>
    have emits : step s = .next { s with rxEvent := none, txQueue := q, linkTx := s.linkTx ++ [b] } :=
      (step_idle hi).trans (congrArg _ (State.txEmit_cons hq))
    have drained := ih { s with rxEvent := none, txQueue := q, linkTx := s.linkTx ++ [b] } hi rfl
    exact (core_run_succ emits q.length).trans (drained.trans (by simp))

/-- Settles O16: one step emits the head, and the queue is drained by induction on its bytes. -/
theorem queueDrainsInOrder : Obligations.QueueDrainsInOrder := by
  refine ⟨fun s b q rest hi hq => ?_, fun s hi => core_run_drains s.txQueue s hi rfl⟩
  rw [step_linkReady hi]
  exact congrArg _ (State.txEmit_cons hq)

/-! ### Whole frames on the link -/

/-- What an effect does to the bytes written to the link, with those still queued: nothing, one frame more, or a reset. -/
theorem Effect.link_cases {s t : State} (h : Effect s t) :
    t.linkTx ++ t.txQueue = s.linkTx ++ s.txQueue ∨
    (∃ x, x.length ≤ s.params.maxCmdLen ∧ t.linkTx ++ t.txQueue = s.linkTx ++ s.txQueue ++ frameOf s.params x) ∨
    t.linkTx ++ t.txQueue = [] := by
  cases h with
  | emit => exact .inl s.txEmit_link
  | finished r => exact .inl (by rw [State.finish_linkTx, State.finish_txQueue])
  | send m x r _ hq hx => exact .inr (.inl ⟨x, hx, by simp [hq]⟩)
  | opened c _ _ _ hq hx => exact .inr (.inl ⟨_, hx, by simp [hq]⟩)
  | reset => exact .inr (.inr rfl)
  | _ => exact .inl rfl

theorem State.linkIsFrames_of_empty {s : State} (h : s.linkTx ++ s.txQueue = []) : s.LinkIsFrames :=
  ⟨[], List.forall_mem_nil _, h⟩

/-- Only the parameters and the bytes on the link and in the queue matter. -/
theorem State.LinkIsFrames.congr {s t : State} (hs : s.LinkIsFrames) (hp : t.params = s.params)
    (hl : t.linkTx ++ t.txQueue = s.linkTx ++ s.txQueue) : t.LinkIsFrames := by
  obtain ⟨xs, fit, frames⟩ := hs
  exact ⟨xs, hp ▸ fit, by rw [hl, hp, frames]⟩

/-- One frame more leaves whole frames. -/
theorem State.LinkIsFrames.append {s t : State} {x : Bytes} (hs : s.LinkIsFrames) (hp : t.params = s.params)
    (hx : x.length ≤ s.params.maxCmdLen)
    (hl : t.linkTx ++ t.txQueue = s.linkTx ++ s.txQueue ++ frameOf s.params x) : t.LinkIsFrames := by
  obtain ⟨xs, fit, frames⟩ := hs
  refine ⟨xs ++ [x], ?_, by rw [hl, hp, frames]; simp⟩
  rw [hp]
  exact List.forall_mem_append.2 ⟨fit, List.forall_mem_singleton.2 hx⟩

theorem Effect.linkIsFrames {s t : State} (h : Effect s t) (hs : s.LinkIsFrames) : t.LinkIsFrames := by
  rcases h.link_cases with hl | ⟨x, hx, hl⟩ | hl
  · exact hs.congr h.params hl
  · exact hs.append h.params hx hl
  · exact State.linkIsFrames_of_empty hl

/-- Settles O17: a step takes nothing from the link or the queue, and its effect keeps the frames whole. -/
theorem linkCarriesWholeFrames : Obligations.LinkCarriesWholeFrames := by
  refine ⟨State.linkIsFrames_of_empty rfl, fun s t hs h => ?_⟩
  obtain ⟨u, taken, effect⟩ := step_effect h
  exact effect.linkIsFrames (hs.congr taken.params (by rw [taken.linkTx, taken.txQueue]))

/-! ### A responder that finds the queue busy -/

/-- The answer to a READ that Validate accepts is one that Validate accepts (R232, R215). -/
theorem performRead_answer_valid {a : U32} {w : Byte} {c : U16} (h : validateRead a w c = none) (s : State) :
    validate s.params (performRead a w c s).2 = none := by
  obtain ⟨hw, hc, ha⟩ := validateRead_none.1 h
  exact validateValues_none.2 ⟨hw, hc, readElements_length _ _ _ _ _, ha⟩

/-- A target that fails answers with an ACK, which Validate always accepts. -/
theorem targetAccess_answer_valid {code : Byte} {f : State → State × Command} {s : State}
    (h : validate s.params (f s).2 = none) : validate s.params (targetAccess code f s).2 = none := by
  rcases targetAccess_cases code f s with ⟨e, -, he⟩ | ⟨-, he⟩ <;> rw [he]
  · rfl
  · exact h

/-- Serving is refused while the queue is busy, whatever the access would change: it ends in an answer that Validate accepts
(R136; log 10). -/
theorem serve_busy {c : Command} {f : State → State × Command} {s : State} (hq : s.txQueue ≠ [])
    (hf : ∃ m, (f s).1 = s.setMem m) (ha : validate s.params c = none → validate s.params (f s).2 = none) :
    serve c f s = .refused .txBusy := by
  rcases serve_cases c f s with ⟨e, -, he⟩ | ⟨hv, he⟩
  · exact he.trans (transmit_busy rfl hq)
  · obtain ⟨m, hm⟩ := hf
    rw [he, hm]
    exact transmit_busy (s := s.setMem m) (ha hv) hq

theorem exec_served_busy (c : Command) {s : State} (hq : s.txQueue ≠ []) :
    exec (c.received .serve) s = .refused .txBusy := by
  cases c with
  | echo d => exact serve_busy hq ⟨s.mem, rfl⟩ fun _ => rfl
  | read a w n =>
    exact serve_busy hq (targetAccess_state ⟨s.mem, rfl⟩) fun h =>
      targetAccess_answer_valid (performRead_answer_valid h s)
  | write a w n v => exact serve_busy hq (targetAccess_state ⟨_, rfl⟩) fun _ => targetAccess_answer_valid rfl
  | setclr a w m v => exact serve_busy hq (targetAccess_state ⟨_, rfl⟩) fun _ => targetAccess_answer_valid rfl
  | readResp a w n v => exact transmit_busy (c := ackOf s.params readRespCode .badCmd) rfl hq
  | ack q e => exact transmit_busy (c := ackOf s.params ackCode .badCmd) rfl hq

/-- Settles O39: every answer of the responder is one that Validate accepts, so it reaches TxStart, which is refused. -/
theorem busyResponderIsRefused : Obligations.BusyResponderIsRefused := fun c cmd _ s hq =>
  ⟨exec_served_busy c hq, transmit_busy (c := ackOf s.params cmd .badCmd) rfl hq⟩

end Sys2Proof.Machine
end

section
/-! The link symbols in every receive state (42_deframer_rx.md R151 to R161): what one byte and what an escape pair do to the
state, and that a symbol is its bytes run one by one. -/

namespace Sys2Proof.Machine

/-! ### One byte, and a pair, on the whole state -/

theorem Deframer.eq_mk {d : Deframer} {r : RxState} (h : d.rxState = r) : d = ⟨r, d.rxBuf⟩ := by
  subst h
  rfl

/-- A link symbol is one byte or an escape pair, and runs as it (R82). -/
theorem exec_symbol_bytes {i : Instr} (hp : i.port = .link) :
    (∃ b, (∀ p, encode p i = [b]) ∧ ∀ s, exec i s = .next (s.takeByte b)) ∨
    ∃ c, (∀ p, encode p i = [escByte, c]) ∧ ∀ s, exec i s = .next (s.takePair escByte c) := by
  rcases exec_symbol_cases hp with ⟨b, ⟨rfl, rfl⟩ | rfl, hx⟩ | ⟨c, ⟨rfl, rfl⟩ | ⟨rfl, rfl⟩ | rfl, hx⟩
  · exact .inl ⟨_, fun _ => rfl, hx⟩
  · exact .inl ⟨_, fun _ => rfl, hx⟩
  · exact .inr ⟨_, fun _ => rfl, hx⟩
  · exact .inr ⟨_, fun _ => rfl, hx⟩
  · exact .inr ⟨_, fun _ => rfl, hx⟩

theorem State.takeByte_eq {s : State} {b : Byte} {r : Deframer × Option RxEvent} (h : s.rx.step s.params b = r) :
    s.takeByte b = s.setRx r := h ▸ rfl

theorem exec_flag_eq {s : State} {r : Deframer × Option RxEvent} (h : s.rx.step s.params flagByte = r) :
    exec .flag s = .next (s.setRx r) := congrArg Host.Outcome.next (State.takeByte_eq h)

theorem exec_literal_eq {s : State} {b : Byte} {r : Deframer × Option RxEvent} (h : s.rx.step s.params b = r) :
    exec (.literal b) s = .next (s.setRx r) := congrArg Host.Outcome.next (State.takeByte_eq h)

/-- Where the first byte of a pair raises no event, the pair does what its second byte does. -/
theorem State.takePair_of_silent {s : State} {b : Byte} {d : Deframer} (h : s.rx.step s.params b = (d, none)) (c : Byte) :
    s.takePair b c = s.setRx (d.step s.params c) := by
  simp [State.takePair, h]

/-- After an event the deframer hunts, so the byte that follows raises none (60_exceptions.md R270). -/
theorem Deframer.step_silent_after_event {p : Params} {d : Deframer} {b : Byte} {e : RxEvent}
    (h : (d.step p b).2 = some e) (c : Byte) : ((d.step p b).1.step p c).2 = none := by
  rw [Deframer.step_event h]
  exact Deframer.step_hunt_silent rfl c

/-- Where the first byte of a pair ends the frame, its second byte, if no FLAG, is discarded (R153). -/
theorem State.takePair_of_event {s : State} {b c : Byte} {e : RxEvent} (h : s.rx.step s.params b = (.fresh, some e))
    (hc : c ≠ flagByte) : s.takePair b c = s.setRx (.fresh, some e) := by
  have second : Deframer.fresh.step s.params c = (.fresh, none) := Deframer.step_hunt_other [] hc
  simp only [State.takePair, h, second]
  rfl

/-- Store on the whole state (R158). -/
theorem State.setRx_store (s : State) (d : Deframer) (v : Byte) :
    s.setRx (d.store s.params v) =
      if d.rxBuf.length = s.params.rxCap then { s with rx := ⟨.hunt, []⟩, rxEvent := some .frameTooLong }
      else { s with rx := ⟨.inFrame, d.rxBuf ++ [v]⟩, rxEvent := none } := by
  split
  · next full => rw [Deframer.store_full v full]; rfl
  · next room => rw [Deframer.store_room v room]; rfl

/-! ### HUNT -/

/-- In HUNT a byte other than FLAG is discarded (R153). -/
theorem Deframer.step_hunt_discards {p : Params} {d : Deframer} (h : d.rxState = .hunt) {b : Byte} (hb : b ≠ flagByte) :
    d.step p b = (d, none) := by
  rw [Deframer.eq_mk h, Deframer.step_hunt_other _ hb]

/-- Settles O18: in HUNT a FLAG opens a frame and any other byte changes nothing. -/
theorem huntScansForSof : Obligations.HuntScansForSof := by
  intro s hunt
  exact ⟨exec_flag_eq (Deframer.eq_mk hunt ▸ Deframer.step_hunt_flag _),
    fun b hb => exec_literal_eq (Deframer.step_hunt_discards hunt hb)⟩

/-! ### A FLAG in a frame -/

theorem Deframer.close_one {p : Params} (b : Byte) :
    Deframer.close p ⟨.inFrame, [b]⟩ = (.fresh, some .malformed) := rfl

/-- A FLAG after two or more bytes compares the last two with the CRC of the others (R155). -/
theorem Deframer.close_pair {p : Params} (data : Bytes) (c0 c1 : Byte) :
    Deframer.close p ⟨.inFrame, data ++ [c0, c1]⟩ =
      (.fresh, some (if crc16 p.crc data = crcOfBytes p [c0, c1] then .frame data else .crcMismatch)) := by
  simp [Deframer.close, Deframer.rxLen, Deframer.report, closedFrame]

/-- Settles O19: the closing FLAG reports what the comparison of the CRCs says. -/
theorem flagClosesAndChecksFrame : Obligations.FlagClosesAndChecksFrame := by
  intro s data c0 c1 hrx
  have closing := exec_flag_eq (hrx ▸ (Deframer.step_inFrame_flag _).trans (Deframer.close_pair data c0 c1))
  refine ⟨fun hcrc => ?_, fun hcrc => ?_⟩
  · rw [closing, if_pos hcrc]; rfl
  · rw [closing, if_neg hcrc]; rfl

/-- Settles O20: an empty frame stays open; a one-byte frame and a dangling escape are reported. -/
theorem flagInShortOrDanglingFrame : Obligations.FlagInShortOrDanglingFrame := by
  intro s
  refine ⟨fun hrx => ?_, fun b hrx => ?_, fun hesc => ?_⟩
  · have still : s.rx.step s.params flagByte = (s.rx, none) := hrx ▸ Deframer.step_inFrame_flag []
    exact exec_flag_eq still
  · exact exec_flag_eq (hrx ▸ (Deframer.step_inFrame_flag [b]).trans (Deframer.close_one b))
  · exact exec_flag_eq (Deframer.eq_mk hesc ▸ Deframer.step_esc_flag _)

/-! ### Data bytes and escape pairs -/

/-- In a frame a data byte is stored (R154). -/
theorem Deframer.step_data {p : Params} {d : Deframer} (h : d.rxState = .inFrame) {b : Byte} (hf : b ≠ flagByte)
    (he : b ≠ escByte) : d.step p b = d.store p b := by
  rw [Deframer.eq_mk h, Deframer.step_inFrame_data _ hf he]

/-- In a frame an escape byte makes the next byte an escaped one (R159). -/
theorem Deframer.step_escape {p : Params} {d : Deframer} (h : d.rxState = .inFrame) :
    d.step p escByte = (⟨.esc, d.rxBuf⟩, none) := by
  rw [Deframer.eq_mk h, Deframer.step_inFrame_esc]

/-- After an escape byte any byte but FLAG is stored with 0x20 flipped (R157). -/
theorem Deframer.step_escaped {p : Params} {d : Deframer} (h : d.rxState = .esc) {b : Byte} (hf : b ≠ flagByte) :
    d.step p b = d.store p (b ^^^ escXor) := by
  rw [Deframer.eq_mk h, Deframer.step_esc_data _ hf]

/-- Settles O21: a literal byte of a frame is handed to Store, as it is or with 0x20 flipped. -/
theorem dataBytesAreStoredOrOverflow : Obligations.DataBytesAreStoredOrOverflow := by
  intro s b hf
  refine ⟨fun hstate he => ?_, fun hstate => ?_⟩
  · rw [exec_literal_eq (Deframer.step_data hstate hf he), State.setRx_store]
  · rw [exec_literal_eq (Deframer.step_escaped hstate hf), State.setRx_store]
    rfl

/-- In HUNT both bytes of a pair are discarded (R153). -/
theorem State.takePair_hunt {s : State} (h : s.rx.rxState = .hunt) {b : Byte} (hb : b ≠ flagByte) :
    s.takePair escByte b = { s with rxEvent := none } := by
  rw [State.takePair_of_silent (Deframer.step_hunt_discards h (by decide)), Deframer.step_hunt_discards h hb]
  rfl

/-- In a frame a pair stores one byte (R157). -/
theorem State.takePair_inFrame {s : State} (h : s.rx.rxState = .inFrame) {b : Byte} (hb : b ≠ flagByte) :
    s.takePair escByte b = s.setRx (s.rx.store s.params (b ^^^ escXor)) := by
  rw [State.takePair_of_silent (Deframer.step_escape h), Deframer.step_esc_data _ hb]
  rfl

/-- After a pending escape byte the pair's own escape byte is the escaped one, `5D` when stored, and the pair's second byte
is taken in whatever state that leaves (R157, R159). -/
theorem State.takePair_esc {s : State} (h : s.rx.rxState = .esc) {b : Byte} (hb : b ≠ flagByte) :
    s.takePair escByte b =
      if s.rx.rxBuf.length = s.params.rxCap then { s with rx := ⟨.hunt, []⟩, rxEvent := some .frameTooLong }
      else if b = escByte then { s with rx := ⟨.esc, s.rx.rxBuf ++ [0x5D]⟩, rxEvent := none }
      else if s.rx.rxBuf.length + 1 = s.params.rxCap then
        { s with rx := ⟨.hunt, []⟩, rxEvent := some .frameTooLong }
      else { s with rx := ⟨.inFrame, s.rx.rxBuf ++ [0x5D, b]⟩, rxEvent := none } := by
  have first : s.rx.step s.params escByte = s.rx.store s.params 0x5D := Deframer.step_escaped h (by decide)
  by_cases full : s.rx.rxBuf.length = s.params.rxCap
  · rw [if_pos full, State.takePair_of_event (first.trans (Deframer.store_full _ full)) hb]
    rfl
  · rw [if_neg full, State.takePair_of_silent (first.trans (Deframer.store_room _ full))]
    by_cases hesc : b = escByte
    · rw [if_pos hesc, hesc, Deframer.step_inFrame_esc]
      rfl
    · rw [if_neg hesc, Deframer.step_inFrame_data _ hb hesc, State.setRx_store]
      simp

/-- Settles O22: the three symbols run as the pair of an escape byte and `b`. -/
theorem escapePairs : Obligations.EscapePairs := by
  intro s b i hi
  have hb : b ≠ flagByte := by
    rcases hi with ⟨-, rfl⟩ | ⟨-, rfl⟩ | ⟨-, hb, -⟩
    · decide
    · decide
    · exact hb
  have run : exec i s = .next (s.takePair escByte b) := by
    rcases hi with ⟨rfl, rfl⟩ | ⟨rfl, rfl⟩ | ⟨rfl, -⟩ <;> rfl
  refine ⟨fun h => ?_, fun h => ?_, fun h => ?_, fun h => ?_, fun h => ?_⟩
  · rw [run, State.takePair_hunt h hb]
  · rw [run, State.takePair_inFrame h hb, State.setRx_store]
    rfl
  · rw [run, State.takePair_esc h hb]
    rfl
  · have dangling := State.takePair_of_silent (Deframer.step_escape h) flagByte
    rw [Deframer.step_esc_flag] at dangling
    exact congrArg Host.Outcome.next dangling
  · exact State.takeByte_eq (Deframer.step_escape h)

/-! ### Symbols as streams -/

/-- The head of a stream and its event, whether or not it raises one (R162). -/
theorem Deframer.run_cons (p : Params) (d : Deframer) (pos : Nat) (b : Byte) (w : Bytes) :
    Deframer.run p d pos (b :: w) = ((Deframer.run p (d.step p b).1 (pos + 1) w).1,
      (d.step p b).2.toList.map (Prod.mk pos) ++ (Deframer.run p (d.step p b).1 (pos + 1) w).2) := by
  rcases h : d.step p b with ⟨d', _ | e⟩
  · exact Deframer.run_cons_none h pos w
  · exact Deframer.run_cons_some h pos w

/-- Settles O23: after an event the deframer hunts, so of a pair's two bytes at most one raises an event. -/
theorem symbolsRunByteByByte : Obligations.SymbolsRunByteByByte := by
  intro i s hp _
  rcases exec_symbol_bytes hp with ⟨b, bytes, run⟩ | ⟨c, bytes, run⟩
  · refine ⟨_, run s, ?_⟩
    rw [bytes, Deframer.run_cons, State.takeByte_rx, State.takeByte_rxEvent]
    cases (s.rx.step s.params b).2 <;> simp [Deframer.run]
  · refine ⟨_, run s, ?_⟩
    rw [bytes, Deframer.run_cons, Deframer.run_cons, State.takePair_rx, State.takePair_rxEvent]
    cases first : (s.rx.step s.params escByte).2 with
    | none => cases ((s.rx.step s.params escByte).1.step s.params c).2 <;> simp [Deframer.run]
    | some e => simp [Deframer.step_silent_after_event first c, Deframer.run]

/-- Settles O25: a link symbol is a byte or a pair taken from the link, and taking them writes the receive side alone. -/
theorem linkSymbolsFrame : Obligations.LinkSymbolsFrame := by
  intro i s t hp h
  rcases exec_symbol_bytes hp with ⟨b, -, run⟩ | ⟨c, -, run⟩ <;> cases (run s).symm.trans h <;> simp

end Sys2Proof.Machine
end

section
/-! Streams through the deframer (42_deframer_rx.md R162 to R168): what it accumulates between two FLAGs, the reception of a
frame, and resynchronisation. -/

namespace Sys2Proof.Machine

/-! ### Between two FLAGs -/

/-- A byte that is handed to Store and raises no event was stored (R158). -/
theorem Deframer.run_cons_stored {p : Params} {d : Deframer} {b v : Byte} (h : d.step p b = d.store p v) {pos : Nat}
    {w : Bytes} (silent : (Deframer.run p d pos (b :: w)).2 = []) :
    Deframer.run p d pos (b :: w) = Deframer.run p ⟨.inFrame, d.rxBuf ++ [v]⟩ (pos + 1) w := by
  by_cases full : d.rxBuf.length = p.rxCap
  · rw [Deframer.run_cons_some (h.trans (Deframer.store_full v full))] at silent
    cases silent
  · exact Deframer.run_cons_none (h.trans (Deframer.store_room v full)) pos w

/-- Between two FLAGs, with no event raised, the deframer stands in ESC exactly after a dangling escape byte (R164). -/
theorem Deframer.run_esc_iff {p : Params} (buf m : Bytes) (pos : Nat) (hm : ∀ b ∈ m, b ≠ flagByte)
    (silent : (Deframer.run p ⟨.inFrame, buf⟩ pos m).2 = []) :
    (Deframer.run p ⟨.inFrame, buf⟩ pos m).1.rxState = .esc ↔ unstuff m = none := by
  induction m using unstuff.induct generalizing buf pos with
  | case1 => simp [Deframer.run, unstuff]
  | case2 =>
    rw [Deframer.run_cons_none (Deframer.step_inFrame_esc buf)]
    simp [Deframer.run, unstuff]
  | case3 b hb =>
    rw [Deframer.run_cons_stored (Deframer.step_inFrame_data buf (hm b (by simp)) hb) silent]
    simp [Deframer.run, unstuff, hb]
  | case4 c r ih =>
    rw [Deframer.run_cons_none (Deframer.step_inFrame_esc buf)] at silent ⊢
    have stored := Deframer.run_cons_stored (Deframer.step_esc_data buf (hm c (by simp))) silent
    rw [stored] at silent ⊢
    rw [ih _ _ (fun b hb => hm b (by simp [hb])) silent, unstuff_pair, Option.map_eq_none_iff]
  | case5 b c r hb ih =>
    have stored := Deframer.run_cons_stored (Deframer.step_inFrame_data buf (hm b (by simp)) hb) silent
    rw [stored] at silent ⊢
    rw [ih _ _ (fun d hd => hm d (.tail _ hd)) silent, unstuff_literal hb, Option.map_eq_none_iff]

/-- Settles O14: induction over the stream, by the shape Unstuff reads it in. -/
theorem deframerAccumulatesUnstuffedBytes : Obligations.DeframerAccumulatesUnstuffedBytes := by
  refine ⟨unstuff_stuff, fun p m pos hm => ⟨fun t hu hfit => ?_, Deframer.run_esc_iff [] m pos hm⟩⟩
  exact Deframer.run_unstuff [] m t pos hm hu (by simpa using hfit)

/-! ### One frame, and resynchronisation -/

/-- Settles O26: what Encode gives is a frame that fits, and such a frame is received. -/
theorem encodedFramesAreReceived : Obligations.EncodedFramesAreReceived := by
  intro p x f hf
  obtain ⟨hx, rfl⟩ := encodeFrame_ok.1 hf
  have received := Deframer.run_frameOf hx 0
  rw [Nat.zero_add] at received
  exact ⟨received, decodeStream_frameOf hx⟩

/-- A FLAG in HUNT or in an empty frame leaves an empty frame (R152, R156). -/
theorem Deframer.step_flag_opens {p : Params} {d : Deframer} (hd : d.Inv p) (h : d.rxState = .hunt ∨ d = ⟨.inFrame, []⟩) :
    d.step p flagByte = (⟨.inFrame, []⟩, none) := by
  rcases h with h | rfl
  · have empty : d.rxBuf = [] := List.length_eq_zero_iff.1 (hd.1 h)
    rw [Deframer.eq_mk h, empty, Deframer.step_hunt_flag]
  · rw [Deframer.step_inFrame_flag]
    rfl

/-- A FLAG in the middle of a frame, or after an escape byte, ends the frame with an event that is no overflow
(R155, R160, R161). -/
theorem Deframer.step_flag_ends {p : Params} {d : Deframer} (h : d.rxState = .esc ∨ (d.rxState = .inFrame ∧ d.rxBuf ≠ [])) :
    ∃ e, d.step p flagByte = (.fresh, some e) ∧ e ≠ .frameTooLong := by
  rcases h with h | ⟨h, hbuf⟩
  · rw [Deframer.eq_mk h]
    exact ⟨_, Deframer.step_esc_flag _, by decide⟩
  · have nonempty : d.rxLen ≠ 0 := fun h0 => hbuf (List.length_eq_zero_iff.1 h0)
    have closing : d.step p flagByte = d.close p := by rw [Deframer.eq_mk h, Deframer.step_inFrame_flag]
    rw [closing, Deframer.close, if_neg nonempty]
    split
    · exact ⟨_, rfl, by decide⟩
    · refine ⟨_, rfl, ?_⟩
      unfold closedFrame
      split <;> simp

/-- Every receive state is open to the next frame, or is one that a FLAG ends. -/
theorem Deframer.open_or_ends (d : Deframer) : (d.rxState = .hunt ∨ d = ⟨.inFrame, []⟩) ∨
    (d.rxState = .esc ∨ (d.rxState = .inFrame ∧ d.rxBuf ≠ [])) := by
  obtain ⟨state, buf⟩ := d
  cases state with
  | hunt => exact .inl (.inl rfl)
  | esc => exact .inr (.inl rfl)
  | inFrame =>
    cases buf with
    | nil => exact .inl (.inr rfl)
    | cons b buf => exact .inr (.inr ⟨rfl, List.cons_ne_nil b buf⟩)

theorem frameOf_eq_cons (p : Params) (x : Bytes) : frameOf p x = flagByte :: (frameOf p x).tail := rfl

/-- A frame is received in HUNT and in an empty frame. -/
theorem Deframer.run_frameOf_open {p : Params} {d : Deframer} (hd : d.Inv p) (h : d.rxState = .hunt ∨ d = ⟨.inFrame, []⟩)
    {x : Bytes} (hx : x.length ≤ p.maxCmdLen) (pos : Nat) :
    Deframer.run p d pos (frameOf p x) = (.fresh, [(pos + (frameOf p x).length - 1, .frame x)]) :=
  (Deframer.run_cons_none (Deframer.step_flag_opens hd h) pos _).trans (Deframer.run_frameOf_tail hx pos)

/-- A frame without its SOF is discarded in HUNT, and its closing FLAG is taken for an SOF (R152, R153). -/
theorem Deframer.run_fresh_frameOf_tail {p : Params} (x : Bytes) (pos : Nat) :
    Deframer.run p .fresh pos (frameOf p x).tail = (⟨.inFrame, []⟩, []) := by
  rw [frameOf, List.append_assoc, List.singleton_append, List.tail_cons, Deframer.run_append, Deframer.fresh,
    Deframer.run_hunt [] _ _ (stuff_noFlag _), Deframer.run_cons_none (Deframer.step_hunt_flag [])]
  rfl

/-- Where a FLAG ends what was being received, the whole frame that it opens is lost. -/
theorem Deframer.run_frameOf_lost {p : Params} {d : Deframer} {e : RxEvent} (h : d.step p flagByte = (.fresh, some e))
    (x : Bytes) : Deframer.run p d 0 (frameOf p x) = (⟨.inFrame, []⟩, [(0, e)]) := by
  rw [frameOf_eq_cons, Deframer.run_cons_some h, Deframer.run_fresh_frameOf_tail]

/-- Settles O27: the FLAG in front of a frame either leaves an empty frame or ends what was being received with an event;
from there both the lost frame and the received one are known. -/
theorem deframerResynchronises : Obligations.DeframerResynchronises := by
  intro p d x f hd hf
  obtain ⟨hx, rfl⟩ := encodeFrame_ok.1 hf
  have emptyInv : Deframer.Inv p ⟨.inFrame, []⟩ := ⟨nofun, Nat.zero_le _⟩
  refine ⟨?_, fun hopen => ?_, fun hends => ?_⟩
  · rcases d.open_or_ends with hopen | hends
    · have received := Deframer.run_frameOf_open emptyInv (.inr rfl) hx 1
      rw [Nat.add_sub_cancel_left] at received
      exact ⟨_, (Deframer.run_cons_none (Deframer.step_flag_opens hd hopen) 0 _).trans received, rfl⟩
    · obtain ⟨e, ends, -⟩ := Deframer.step_flag_ends (p := p) hends
      have received := Deframer.run_frameOf hx 1
      rw [Nat.add_sub_cancel_left] at received
      refine ⟨[(0, e), ((frameOf p x).length, .frame x)], ?_, rfl⟩
      exact (Deframer.run_cons_some ends 0 _).trans (by rw [Nat.zero_add, received])
  · rw [Deframer.run_frameOf_open hd hopen hx, Nat.zero_add]
  · obtain ⟨e, ends, he⟩ := Deframer.step_flag_ends (p := p) hends
    have lost := Deframer.run_frameOf_lost ends x
    refine ⟨⟨e, lost, he⟩, fun y g hg => ⟨e, ?_⟩⟩
    obtain ⟨hy, rfl⟩ := encodeFrame_ok.1 hg
    rw [Deframer.run_append, lost, Deframer.run_frameOf_open emptyInv (.inr rfl) hy, Nat.zero_add]
    rfl

end Sys2Proof.Machine
end

section
/-! A step that takes a link symbol, or a lone escape byte, from the inputs (42_deframer_rx.md R151, R159, R160; log 5). -/

namespace Sys2Proof.Machine

/-- The window begins with the bytes of the symbol that stands first. -/
theorem linkWindow_symbol {i : Instr} (hp : i.port = .link) (p : Params) (rest : List Input) :
    ∃ after, linkWindow ((encode p i).map Input.linkByte ++ rest) = encode p i ++ after := by
  rcases exec_symbol_bytes hp with ⟨b, bytes, -⟩ | ⟨c, bytes, -⟩ <;> rw [bytes]
  · exact linkWindow_cons b rest
  · exact ⟨[], rfl⟩

/-- A well-formed symbol that stands first is fetched, and its bytes are taken. -/
theorem fetch_symbol_bytes {s : State} {i : Instr} {rest : List Input} (hp : i.port = .link)
    (hw : i.wellFormed s.params = true) (hs : s.inputs = (encode s.params i).map Input.linkByte ++ rest) :
    fetch s = .instr i { s with inputs := rest, rxEvent := none } := by
  obtain ⟨b, r, hb⟩ : ∃ b r, s.inputs = .linkByte b :: r := by
    rcases exec_symbol_bytes hp with ⟨b, bytes, -⟩ | ⟨c, bytes, -⟩ <;> rw [hs, bytes]
    · exact ⟨_, _, rfl⟩
    · exact ⟨_, _, rfl⟩
  obtain ⟨after, window⟩ := linkWindow_symbol hp s.params rest
  rw [← hs] at window
  have symbol := decodeSymbol_append (decodeSymbol_encode hp hw) after
  rw [List.nil_append, ← window] at symbol
  have taken : s.inputs.drop (encode s.params i).length = rest := by
    rw [hs]
    exact List.drop_left' (List.length_map _)
  rw [fetch_link hb symbol, window, List.length_append, Nat.add_sub_cancel, State.advance, taken]

/-- An escape byte with no link byte, or a FLAG, behind it is no whole symbol (R159, R160). -/
theorem decodeSymbol_loneEscape {rest : List Input} (h : ∀ b, rest.head? = some (.linkByte b) → b = flagByte) :
    ∃ e, decodeSymbol (linkWindow (.linkByte escByte :: rest)) = .error e := by
  cases rest with
  | nil => exact ⟨_, rfl⟩
  | cons i rest =>
    cases i with
    | linkByte b => obtain rfl := h b rfl; exact ⟨_, rfl⟩
    | _ => exact ⟨_, rfl⟩

/-- A lone escape byte is fetched as a raw byte. -/
theorem fetch_loneEscape {s : State} {rest : List Input} (hs : s.inputs = .linkByte escByte :: rest)
    (h : ∀ b, rest.head? = some (.linkByte b) → b = flagByte) :
    fetch s = .act (.linkByte escByte) { s with inputs := rest, rxEvent := none } := by
  have link : fetch s = fetchLink escByte s := by simp only [fetch, hs]
  obtain ⟨e, lone⟩ := decodeSymbol_loneEscape h
  rw [← hs] at lone
  rw [link, fetchLink, decode, lone, State.advance_one hs]

/-- Settles O52: a whole symbol is fetched as the instruction it is, and a lone escape byte as a raw byte. -/
theorem stepRunsLinkSymbol : Obligations.StepRunsLinkSymbol := by
  refine ⟨fun s i rest hp hw hs => ?_, fun s rest hs lone => ?_⟩
  · simp only [step, fetch_symbol_bytes hp hw hs]
  · rw [step, fetch_loneEscape hs lone]
    rfl

end Sys2Proof.Machine
end

section
/-! The serializer (43_serializer.md): the bytes of a Layout and their number (R181 to R190), a command the host sends (R180;
41_framer_tx.md R136), and the steps that run a command sent, called or received. -/

namespace Sys2Proof.Machine

/-! ### Layout -/

/-- A Layout is the code, the length of the payload, and the payload (R181). -/
theorem layout_eq {p : Params} {c : Command} {n : Nat} {pl : Bytes} (hlen : (c.payload p).length = n)
    (hpl : c.payload p = pl) : layout p c = c.code :: toField p.fieldEndian 2 n ++ pl := by
  subst hlen hpl
  rfl

/-- Settles O30: the length of each variant's payload is known, and its fields stand one after the other. -/
theorem layoutOfEachVariant : Obligations.LayoutOfEachVariant := by
  intro p a w n d m v q e
  refine ⟨rfl, ?read, ?write, ?setclr, ?readResp, rfl⟩
  all_goals exact layout_eq (Command.payload_length p _) (by simp [Command.payload])

/-- The two bytes after `cmd` are the `len` field (30_encoding.md R80). -/
theorem layout_lenField (p : Params) (c : Command) :
    ((layout p c).drop 1).take 2 = toField p.fieldEndian 2 (c.payload p).length :=
  List.take_left' (toField_length _ _ _)

/-- The payload of a command whose byte strings have the sizes its fields say is as long as they imply (R91). -/
theorem Command.payload_expectedLen {p : Params} {c : Command} (h : c.transmitted.wellFormed p = true) :
    (c.payload p).length = c.expectedLen :=
  (desVariant_ok (desVariant_payload h)).2

/-- Settles O3: what Validate accepts is well formed, so it comes back, and its payload's length fits the `len` field. -/
theorem lenFieldIsExpectedLen : Obligations.LenFieldIsExpectedLen := by
  intro p c hp hv
  have wf := wellFormed_of_validate hp hv
  obtain ⟨-, -, fits⟩ := lengthFits_iff.1 (lengthFits_payload wf)
  refine ⟨deserialize_layout wf, ?_⟩
  rw [layout_lenField, ofField_toField]
  exact (Nat.mod_eq_of_lt fits).trans (Command.payload_expectedLen wf)

/-! ### The results of Serialize -/

/-- Serialize answers the Layout of a command that Validate accepts (R180). -/
theorem serialize_ok {p : Params} {c : Command} {x : Bytes} :
    serialize p c = .ok x ↔ validate p c = none ∧ x = layout p c := by
  unfold serialize
  cases validate p c <;> simp [eq_comm]

/-- The defaults are values that the spec admits (00_scope.md R8; log 13). -/
theorem Params.default_admissible : Params.default.admissible := by decide

/-- The Layout of an accepted command has the header's three bytes and the length its fields imply (R189). -/
theorem layout_length_expectedLen {p : Params} (hp : p.admissible) {c : Command} (h : validate p c = none) :
    (layout p c).length = 3 + c.expectedLen := by
  rw [layout_length, Command.payload_expectedLen (wellFormed_of_validate hp h)]

/-- `values` of an accepted command hold at least one byte (R213, R215). -/
theorem validateValues_size {a : U32} {w : Byte} {n : U16} {v : Bytes} (h : validateValues a w n v = none) :
    1 ≤ n.toNat * w.toNat := by
  obtain ⟨hw, hn, -, -⟩ := validateValues_none.1 h
  exact (legal_product hw hn).2

/-- The lengths that an accepted SETCLR's legal widths leave (R185, R214). -/
theorem validateSetclr_expectedLen {a : U32} {w : Byte} {m v : Bytes} (h : validateSetclr a w m v = none) :
    (Command.setclr a w m v).expectedLen = 7 ∨ (Command.setclr a w m v).expectedLen = 9 ∨
      (Command.setclr a w m v).expectedLen = 13 := by
  obtain ⟨hw, -, -, -⟩ := validateSetclr_none.1 h
  rcases (legalWidth_iff w).1 hw with h | h | h <;> simp [Command.expectedLen, h]

/-- Settles O4: the default build is admissible, so a result is a Layout within the command range and Encode takes it; its
length is then the one its fields imply. -/
theorem serializeResultSizes : Obligations.SerializeResultSizes := by
  intro c x h
  obtain ⟨hv, rfl⟩ := serialize_ok.1 h
  have ⟨lower, upper⟩ := Laws.EncodeLength.command_range (wellFormed_of_validate Params.default_admissible hv)
  have len := layout_length_expectedLen Params.default_admissible hv
  refine ⟨lower, upper, ⟨_, encodeFrame_fits upper⟩, ?_⟩
  cases c with
  | echo d => exact len
  | read a w n => exact len
  | write a w n v =>
    have := validateValues_size hv
    simp only [Command.expectedLen] at len
    omega
  | setclr a w m v =>
    have := validateSetclr_expectedLen hv
    omega
  | readResp a w n v =>
    have := validateValues_size hv
    simp only [Command.expectedLen] at len
    omega
  | ack q e => exact len

/-! ### Sending a command -/

/-- The one command that is not sendable is an ACK, which Validate accepts: what Validate refuses is refused by its code. -/
theorem sendable_of_invalid {p : Params} {c : Command} {e : FieldError} (h : validate p c = some e) :
    sendable p c = true := by
  cases c with
  | ack q err => cases h
  | _ => rfl

/-- Settles O29: a sendable command runs as `transmit`, by what Validate answers and whether the queue is empty; the other is
refused. -/
theorem commandsAreSerializedAndQueued : Obligations.CommandsAreSerializedAndQueued := by
  intro c s
  refine ⟨fun e hv => ?_, fun hv hs hq fits => ?_, fun hv hs hq => ?_, exec_transmitted_refused⟩
  · exact (exec_transmitted (sendable_of_invalid hv)).trans (transmit_invalid hv)
  · have room : (layout s.params c).length ≤ s.params.maxCmdLen := fits.elim (layout_fits · hv) id
    exact (exec_transmitted hs).trans (transmit_fits hv hq room)
  · exact (exec_transmitted hs).trans (transmit_busy hv hq)

/-! ### Steps that run commands -/

/-- The host's call is taken as the command it hands over (R180). -/
theorem step_call {s : State} {c : Command} {rest : List Input} (h : s.inputs = .call c :: rest) :
    step s = exec c.transmitted { s with inputs := rest, rxEvent := none } := by
  simp only [step, fetch, h, State.advance_one h]

/-- A frame decodes at the event port to the instruction that `decodeFrame` gives, with nothing left over. -/
theorem decodeFrame_of_decode {p : Params} {u : RecvUse} {x : Bytes} {i : Instr} (h : decode p (.frame u) x = .ok (i, [])) :
    decodeFrame p u x = .ok i := by
  cases hd : decodeFrame p u x <;> simp only [decode, hd] at h <;> cases h
  rfl

/-- The responder or the session takes a delivered frame that decodes (45_command_contract.md R238; 60_exceptions.md R288). -/
theorem step_received {s : State} {u : RecvUse} {x : Bytes} {i : Instr} {rest : List Input}
    (he : s.rxEvent = some (.frame x)) (hd : decode s.params (.frame u) x = .ok (i, []))
    (h : s.inputs = takeInput u :: rest) : step s = exec i { s with inputs := rest, rxEvent := none } := by
  have taken : fetch s = fetchEvent u s.rxEvent (s.advance 1) := by cases u <;> simp only [fetch, h, takeInput]
  simp only [step, taken, he, fetchEvent, decodeFrame_of_decode hd, State.advance_one h]

/-- An operation's call runs its request, or finds its caller blocked by FlashUpdate (60_exceptions.md R286; log 19). -/
theorem step_op {s : State} {x : Input} {i : Instr} {rest : List Input} (h : s.inputs = x :: rest)
    (hf : fetch s = fetchOp i (s.advance 1)) :
    step s = if s.flash = [] then exec i { s with inputs := rest, rxEvent := none } else .refused .callerBlocked := by
  simp only [step, hf, fetchOp, State.advance_one h]
  by_cases free : s.flash = []
  · simp only [if_pos free]
  · simp only [if_neg free]
    rfl

/-- Settles O53: each input is fetched by its own rule. -/
theorem stepRunsCommands : Obligations.StepRunsCommands := by
  intro s rest
  refine ⟨fun c h => step_call h, fun x i he hd h => step_received he hd h, fun x i he hd h => step_received he hd h,
    fun a w n d m v => ⟨fun h => ?echo, fun h => ?read, fun h => ?write, fun h => ?setclr⟩⟩
  all_goals exact step_op h (by simp only [fetch, h])

end Sys2Proof.Machine
end

section
/-! The deserializer (44_deserializer.md): the codec's round trip (R218), the bytes each variant's fields are read from (R203
to R208; 30_encoding.md R92), the order of Validate's checks (R211 to R217), and what is checked before the tag (R201, R202). -/

namespace Sys2Proof.Machine

/-! ### Writing back what was read -/

/-- `addr` written back is the four bytes it was read from (R86). -/
theorem toField_addrField {p : Params} {pl : Bytes} (h : 4 ≤ pl.length) :
    toField p.fieldEndian 4 (addrField p pl).toNat = pl.take 4 := by
  have len : (pl.take 4).length = 4 := List.length_take_of_le h
  have fits : ofField p.fieldEndian (pl.take 4) < 2 ^ 32 := (ofField_lt _ _).trans_eq (by rw [len]; rfl)
  rw [addrField, BitVec.toNat_ofNat, Nat.mod_eq_of_lt fits, toField_ofField_of_length len]

/-- `count` written back is the two bytes it was read from (R86). -/
theorem toField_countField {p : Params} {pl : Bytes} (h : 7 ≤ pl.length) :
    toField p.fieldEndian 2 (countField p pl).toNat = (pl.drop 5).take 2 := by
  have len : ((pl.drop 5).take 2).length = 2 := List.length_take_of_le (by rw [List.length_drop]; omega)
  have fits : ofField p.fieldEndian ((pl.drop 5).take 2) < 2 ^ 16 := (ofField_lt _ _).trans_eq (by rw [len]; rfl)
  rw [countField, BitVec.toNat_ofNat, Nat.mod_eq_of_lt fits, toField_ofField_of_length len]

/-- `addr` and `width` written back before what follows them are the payload they were read from (R86). -/
theorem fixedFields_drop {p : Params} {pl : Bytes} (h : 5 ≤ pl.length) :
    toField p.fieldEndian 4 (addrField p pl).toNat ++ [widthField pl] ++ pl.drop 5 = pl := by
  have width : widthField pl :: pl.drop 5 = pl.drop 4 := by
    rw [widthField, List.getD_eq_getElem _ _ h, List.getElem_cons_drop]
  rw [toField_addrField (by omega), List.append_assoc, List.singleton_append, width, List.take_append_drop]

/-- `addr`, `width` and `count` written back before what follows them are the payload they were read from (R86). -/
theorem countedFields_drop {p : Params} {pl : Bytes} (h : 7 ≤ pl.length) :
    toField p.fieldEndian 4 (addrField p pl).toNat ++ [widthField pl] ++ toField p.fieldEndian 2 (countField p pl).toNat
      ++ pl.drop 7 = pl := by
  rw [toField_countField h, List.append_assoc, ← List.drop_drop (i := 2) (j := 5), List.take_append_drop,
    fixedFields_drop (by omega)]

/-- The payload of what a variant's rule answers is the payload it took. -/
theorem payload_of_desVariant {p : Params} {pl : Bytes} {c : Command} (h : desVariant p c.code pl = .ok c) :
    c.payload p = pl := by
  have len := (desVariant_ok h).2
  cases c with
  | echo d =>
    obtain ⟨-, ⟨⟩⟩ := check_passed h
    rfl
  | read a w n =>
    obtain ⟨-, ⟨⟩⟩ := check_passed h
    have whole := countedFields_drop (p := p) len.ge
    have rest : pl.drop 7 = [] := List.drop_of_length_le len.le
    rwa [rest, List.append_nil] at whole
  | write a w n v =>
    obtain ⟨hlen, h⟩ := check_passed h
    obtain ⟨-, ⟨⟩⟩ := check_passed h
    exact countedFields_drop (not_lt.1 hlen)
  | setclr a w m v =>
    obtain ⟨hlen, h⟩ := check_passed h
    obtain ⟨-, ⟨⟩⟩ := check_passed h
    rw [Command.payload, List.append_assoc, ← List.drop_drop, List.take_append_drop, fixedFields_drop (not_lt.1 hlen)]
  | readResp a w n v =>
    obtain ⟨hlen, h⟩ := check_passed h
    obtain ⟨-, ⟨⟩⟩ := check_passed h
    exact countedFields_drop (not_lt.1 hlen)
  | ack q e =>
    obtain ⟨-, ⟨⟩⟩ := check_passed h
    obtain ⟨q, e, rfl⟩ := two_bytes len
    rfl

/-- Settles O2: what Validate accepts is well formed; of what deserialises, the tag, the `len` field and the payload are those
of the command's Layout. -/
theorem codecRoundTrip : Obligations.CodecRoundTrip := by
  refine ⟨fun p c hp hv => deserialize_layout (wellFormed_of_validate hp hv), fun p x c h => ?_⟩
  obtain ⟨cmd, l0, l1, pl, rfl, -, -, hlen, hv⟩ := deserialize_ok h nofun
  obtain ⟨rfl, -⟩ := desVariant_ok hv
  rw [layout, payload_of_desVariant hv, withHeader, hlen, toField_ofField_of_length (n := 2) rfl]
  rfl

/-! ### The fields byte by byte -/

/-- A byte appended below a word is its lowest byte. -/
theorem toNat_append_byte {n : Nat} (x : BitVec n) (b : Byte) : (x ++ b).toNat = b.toNat + 256 * x.toNat := by
  rw [BitVec.toNat_append, ← Nat.shiftLeft_add_eq_or_of_lt b.isLt, Nat.shiftLeft_eq]
  omega

/-- Four bytes as a little-endian number are the word with the last of them highest (00_scope.md R11). -/
theorem fromLE_four (a0 a1 a2 a3 : Byte) : fromLE [a0, a1, a2, a3] = (a3 ++ a2 ++ a1 ++ a0 : U32).toNat := by
  simp only [fromLE, toNat_append_byte, Nat.mul_zero, Nat.add_zero]

/-- Two bytes as a little-endian number are the word with the last of them highest (00_scope.md R11). -/
theorem fromLE_two (c0 c1 : Byte) : fromLE [c0, c1] = (c1 ++ c0 : U16).toNat := by
  simp only [fromLE, toNat_append_byte, Nat.mul_zero, Nat.add_zero]

/-- `addr` in a little-endian build: payload byte 0 is its lowest byte (R86, R92). -/
theorem addrField_little {p : Params} (h : p.fieldEndian = .little) (a0 a1 a2 a3 : Byte) (rest : Bytes) :
    addrField p (a0 :: a1 :: a2 :: a3 :: rest) = (a3 ++ a2 ++ a1 ++ a0 : U32) := by
  rw [addrField, h]
  exact (congrArg _ (fromLE_four ..)).trans ((BitVec.ofNat_toNat _ _).trans (BitVec.setWidth_eq _))

/-- `count` in a little-endian build: payload byte 5 is its lower byte (R86, R92). -/
theorem countField_little {p : Params} (h : p.fieldEndian = .little) (a0 a1 a2 a3 w c0 c1 : Byte) (rest : Bytes) :
    countField p (a0 :: a1 :: a2 :: a3 :: w :: c0 :: c1 :: rest) = (c1 ++ c0 : U16) := by
  rw [countField, h]
  exact (congrArg _ (fromLE_two ..)).trans ((BitVec.ofNat_toNat _ _).trans (BitVec.setWidth_eq _))

/-- R205 on a payload with the fixed fields: the product decides. -/
theorem desVariant_write {p : Params} {pl : Bytes} (h : 7 ≤ pl.length) : desVariant p writeCode pl =
    if pl.length = 7 + (countField p pl).toNat * (widthField pl).toNat
    then .ok (.write (addrField p pl) (widthField pl) (countField p pl) (pl.drop 7)) else .error .badPayloadLen :=
  (if_neg (Nat.not_lt.2 h)).trans (ite_not ..)

/-- R207 on a payload with the fixed fields: the product decides. -/
theorem desVariant_readResp {p : Params} {pl : Bytes} (h : 7 ≤ pl.length) : desVariant p readRespCode pl =
    if pl.length = 7 + (countField p pl).toNat * (widthField pl).toNat
    then .ok (.readResp (addrField p pl) (widthField pl) (countField p pl) (pl.drop 7)) else .error .badPayloadLen :=
  (if_neg (Nat.not_lt.2 h)).trans (ite_not ..)

/-- R206 on a payload with the fixed fields: the width decides. -/
theorem desVariant_setclr {p : Params} {pl : Bytes} (h : 5 ≤ pl.length) : desVariant p setclrCode pl =
    if pl.length = 5 + 2 * (widthField pl).toNat
    then .ok (.setclr (addrField p pl) (widthField pl) ((pl.drop 5).take (widthField pl).toNat)
      ((pl.drop 5).drop (widthField pl).toNat)) else .error .badPayloadLen := by
  rw [List.drop_drop]
  exact (if_neg (Nat.not_lt.2 h)).trans (ite_not ..)

/-- Settles O8: each tag selects its variant's rule, which refuses a payload too short for its fixed fields; the bytes of the
others are the fields. -/
theorem fieldsAreReadFromTheirOffsets : Obligations.FieldsAreReadFromTheirOffsets := by
  intro p pl v a0 a1 a2 a3 w c0 c1 q e hp addr count bad
  have hcount : count.toNat = c0.toNat + 256 * c1.toNat := toNat_append_byte c1 c0
  have len7 : ([a0, a1, a2, a3, w, c0, c1] ++ v).length = 7 + v.length := List.length_append
  have len5 : ([a0, a1, a2, a3, w] ++ v).length = 5 + v.length := List.length_append
  have haddr : addrField p ([a0, a1, a2, a3, w, c0, c1] ++ v) = addr := addrField_little hp ..
  have hcnt : countField p ([a0, a1, a2, a3, w, c0, c1] ++ v) = count := countField_little hp ..
  refine ⟨rfl, fun h => if_pos h, ?read, fun h => ⟨if_pos h, if_pos h⟩, ?write, ?readResp, fun h => if_pos h, ?setclr,
    fun h => if_pos h, rfl⟩
  case read =>
    change desRead p [a0, a1, a2, a3, w, c0, c1] = _
    rw [desRead_ok rfl, addrField_little hp, countField_little hp]
    rfl
  case write =>
    refine (desVariant_write (by omega)).trans ?_
    rw [haddr, hcnt, len7, ← hcount]
    simp only [Nat.add_left_cancel_iff]
    rfl
  case readResp =>
    refine (desVariant_readResp (by omega)).trans ?_
    rw [haddr, hcnt, len7, ← hcount]
    simp only [Nat.add_left_cancel_iff]
    rfl
  case setclr =>
    refine (desVariant_setclr (by omega)).trans ?_
    rw [show addrField p ([a0, a1, a2, a3, w] ++ v) = addr from addrField_little hp .., len5]
    simp only [Nat.add_left_cancel_iff]
    rfl

/-! ### The order of Validate's checks -/

theorem not_legalCount_iff (n : U16) : ¬ legalCount n = true ↔ n.toNat = 0 ∨ 256 < n.toNat := by
  rw [legalCount_iff]
  omega

/-- R212 in numbers. -/
theorem validateRead_eq (a : U32) (w : Byte) (n : U16) : validateRead a w n =
    if ¬ (w.toNat = 1 ∨ w.toNat = 2 ∨ w.toNat = 4) then some .badWidth
    else if n.toNat = 0 ∨ 256 < n.toNat then some .badCount
    else if a.toNat % w.toNat ≠ 0 then some .notAligned
    else none := by
  simp only [validateRead, legalWidth_iff, not_legalCount_iff, aligned_iff, ne_eq]

/-- R213 and R215 in numbers. -/
theorem validateValues_eq (a : U32) (w : Byte) (n : U16) (v : Bytes) : validateValues a w n v =
    if ¬ (w.toNat = 1 ∨ w.toNat = 2 ∨ w.toNat = 4) then some .badWidth
    else if n.toNat = 0 ∨ 256 < n.toNat then some .badCount
    else if v.length ≠ n.toNat * w.toNat then some .badPayloadLen
    else if a.toNat % w.toNat ≠ 0 then some .notAligned
    else none := by
  simp only [validateValues, legalWidth_iff, not_legalCount_iff, aligned_iff, ne_eq]

/-- R214 in numbers. -/
theorem validateSetclr_eq (a : U32) (w : Byte) (m v : Bytes) : validateSetclr a w m v =
    if ¬ (w.toNat = 1 ∨ w.toNat = 2 ∨ w.toNat = 4) then some .badWidth
    else if m.length ≠ w.toNat ∨ v.length ≠ w.toNat then some .badPayloadLen
    else if a.toNat % w.toNat ≠ 0 then some .notAligned
    else none := by
  simp only [validateSetclr, legalWidth_iff, aligned_iff, ne_eq]

/-- Settles O10: each clause is one branch of the checks of R212 to R215, in their order. -/
theorem validateReportsFirstFailure : Obligations.ValidateReportsFirstFailure := by
  intro p a w n d m v req err
  simp only [validate, validateRead_eq, validateValues_eq, validateSetclr_eq]
  refine ⟨rfl, fun hw => ?badWidth, fun hw hn => ?badCount, fun hw hn hv => ?badSize, fun hw hmv => ?badParts,
    fun hw hn ha => ⟨?misaligned, fun hv => ?misalignedValues⟩, fun hw hm hv ha => ?misalignedParts,
    fun hw hn ha => ⟨?accepted, fun hv => ?acceptedValues⟩, fun hw hm hv ha => ?acceptedParts, trivial⟩
  case badWidth => simp only [if_pos hw, and_self]
  case badCount => simp only [if_neg hw, if_pos hn, and_self]
  case badSize => simp only [if_neg hw, if_neg hn, if_pos hv, and_self]
  case badParts => rw [if_neg hw, if_pos hmv]
  case misaligned => rw [if_neg hw, if_neg hn, if_pos ha]
  case misalignedValues => simp only [if_neg hw, if_neg hn, if_neg (not_not.2 hv), if_pos ha, and_self]
  case misalignedParts => rw [if_neg hw, if_neg (by omega), if_pos ha]
  case accepted => rw [if_neg hw, if_neg hn, if_neg ha]
  case acceptedValues => simp only [if_neg hw, if_neg hn, if_neg (not_not.2 hv), if_neg ha, and_self]
  case acceptedParts => rw [if_neg hw, if_neg (by omega), if_neg ha]

/-! ### The checks before the tag -/

/-- Settles O6: whatever answers anything but BadCmdLen has three header bytes, a length in range and a `len` that agrees. -/
theorem lengthIsCheckedBeforeTheTag : Obligations.LengthIsCheckedBeforeTheTag := by
  intro p x
  refine ⟨fun h => ?outOfRange, ?header⟩
  case outOfRange =>
    by_contra hr
    obtain ⟨cmd, l0, l1, pl, rfl, lower, upper, -, -⟩ := deserialize_ok rfl hr
    simp only [List.length_cons] at h
    omega
  case header =>
    rintro cmd l0 l1 pl rfl lower upper
    simp only [List.length_cons] at lower upper ⊢
    refine ⟨fun h => ?_, fun h => ?_⟩
    · by_contra hr
      obtain ⟨cmd', l0', l1', pl', ⟨⟩, -, -, agrees, -⟩ := deserialize_ok rfl hr
      omega
    · have range : ¬ (hdrSize + pl.length < p.minCmdLen ∨ p.maxCmdLen < hdrSize + pl.length) := by
        simp only [hdrSize]; omega
      have agrees : ¬ hdrSize + pl.length ≠ hdrSize + ofField p.fieldEndian [l0, l1] := by
        simp only [hdrSize]; omega
      exact (if_neg range).trans (if_neg agrees)

/-- The tags that select no variant (R97). -/
theorem isReservedCmd_iff (cmd : Byte) : isReservedCmd cmd = true ↔ ¬ (1 ≤ cmd.toNat ∧ cmd.toNat ≤ 6) := by
  revert cmd; decide

/-- A length check reports BadPayloadLen, so it adds no BadCmd to what follows it. -/
theorem lengthCheck_ne_badCmd {P : Prop} [Decidable P] {r : Except DesError Command} (h : r ≠ .error .badCmd) :
    (if P then .error .badPayloadLen else r) ≠ .error .badCmd := by
  split
  · nofun
  · exact h

/-- The rule of a variant never reports BadCmd (R203 to R208). -/
theorem desVariant_ne_badCmd {p : Params} {cmd : Byte} {pl : Bytes} (h : isReservedCmd cmd = false) :
    desVariant p cmd pl ≠ .error .badCmd := by
  have tags : cmd = echoCode ∨ cmd = readCode ∨ cmd = writeCode ∨ cmd = setclrCode ∨ cmd = readRespCode ∨
      cmd = ackCode := by revert cmd; decide
  rcases tags with rfl | rfl | rfl | rfl | rfl | rfl
  · exact lengthCheck_ne_badCmd nofun
  · exact lengthCheck_ne_badCmd nofun
  · exact lengthCheck_ne_badCmd (lengthCheck_ne_badCmd nofun)
  · exact lengthCheck_ne_badCmd (lengthCheck_ne_badCmd nofun)
  · exact lengthCheck_ne_badCmd (lengthCheck_ne_badCmd nofun)
  · exact lengthCheck_ne_badCmd nofun

/-- Settles O7: a reserved tag selects no rule, and the rule any other tag selects reports no BadCmd. -/
theorem badCmdExactlyForReservedTags : Obligations.BadCmdExactlyForReservedTags := by
  intro p cmd pl
  rw [← isReservedCmd_iff]
  refine ⟨fun h => ?_, desVariant_reserved⟩
  by_contra hr
  exact desVariant_ne_badCmd (Bool.eq_false_of_not_eq_true hr) h

end Sys2Proof.Machine
end

section
/-! What the responder answers (45_command_contract.md R230 to R239): a request that is performed, one that Validate or the
target refuses, what is no request, and bytes that are no command. Then FlashUpdate (R244). -/

namespace Sys2Proof.Machine

/-! ### The target's part in serving -/

/-- A request that Validate accepts and the target performs (R238). -/
theorem serve_performed {c : Command} {code : Byte} {f : State → State × Command} {s : State}
    (hv : validate s.params c = none) (ht : s.targetAnswer = none) :
    serve c (targetAccess code f) s = transmit (f s).2 (f s).1 := by
  rw [serve_valid hv, targetAccess_performed ht]

/-- A request that Validate accepts and the target does not perform (R238, R239). -/
theorem serve_targetFailed {c : Command} {code : Byte} {f : State → State × Command} {s : State} {e : TargetError}
    (hv : validate s.params c = none) (ht : s.targetAnswer = some e) :
    serve c (targetAccess code f) s = transmit (ackOf s.params code e.code) s := by
  rw [serve_valid hv, targetAccess_failed ht]

/-! ### Requests that are performed -/

/-- The ECHOs that Validate accepts (R211). -/
theorem validateEcho_none {p : Params} {d : Bytes} :
    validateEcho p d = none ↔ 1 ≤ d.length ∧ d.length ≤ p.echoMax := by
  simp only [validateEcho, ite_eq_right_iff, reduceCtorEq, imp_false]
  omega

/-- Settles O32: an ECHO of a legal length passes Validate and needs no target, so the answer is ACK OK. -/
theorem echoIsAcknowledged : Obligations.EchoIsAcknowledged := by
  intro d s hp hq lower upper
  have valid : validate s.params (.echo d) = none := validateEcho_none.2 ⟨lower, upper⟩
  exact (serve_valid valid).trans (transmit_ack hp hq echoCode .ok)

/-- Settles O33: the values are the elements the slave reads, and the READ_RESP that carries them is one that Validate
accepts. -/
theorem readIsAnsweredWithElements : Obligations.ReadIsAnsweredWithElements := by
  intro a w n s hp hq hv ht
  refine ⟨readElements s.params.fieldEndian s.mem a.toNat w.toNat n.toNat, readElements_length _ _ _ _ _,
    fun k hk => readElements_get _ _ _ _ _ k hk, ?_⟩
  have valid := performRead_answer_valid hv s
  exact (serve_performed hv ht).trans (transmit_fits valid hq (layout_fits hp valid))

/-- Settles O34: the register space is the one that `writeElements` leaves. -/
theorem writeStoresElements : Obligations.WriteStoresElements := by
  intro a w n v s hp hq hm hv ht range
  obtain ⟨-, -, size, -⟩ := validateValues_none.1 hv
  obtain ⟨kept, stored⟩ := writeElements_spec s.params.fieldEndian hm a.toNat w.toNat v n.toNat range size
  refine ⟨writeElements s.params.fieldEndian s.mem a.toNat w.toNat v n.toNat, writeElements_wf _ hm _ _ _ _,
    stored, kept, ?_⟩
  exact (serve_performed hv ht).trans (transmit_ack (s := (performWrite a w n v s).1) hp hq writeCode .ok)

/-- An aligned register of a legal width lies below 2^32 as a whole (20_memory.md R60). -/
theorem aligned_register_fits {a : U32} {w : Byte} (hw : legalWidth w = true) (ha : aligned a w = true) :
    a.toNat + w.toNat ≤ 2 ^ 32 := by
  rw [legalWidth_iff] at hw
  rw [aligned_iff] at ha
  have := a.isLt
  rcases hw with h | h | h <;> rw [h] at ha ⊢ <;> omega

/-- Settles O35: the register reads back as SETCLR's value, which has the bits the statement says. -/
theorem setclrModifiesMaskedBits : Obligations.SetclrModifiesMaskedBits := by
  intro a w mask val s hp hq hm hv ht
  obtain ⟨width, -, -, align⟩ := validateSetclr_none.1 hv
  have fits := aligned_register_fits width align
  refine ⟨memWrite s.mem a.toNat w.toNat (setclrValue w.toNat (memRead s.mem a.toNat w.toNat)
    (ofField s.params.fieldEndian mask) (ofField s.params.fieldEndian val)), memWrite_wf hm _ _ _, fun j hj => ?_,
    fun x hx => read_memWrite hm fits hx, ?_⟩
  · rw [memRead_memWrite hm fits, Nat.mod_eq_of_lt (setclrValue_lt _ _ _ _)]
    exact setclrValue_testBit hj
  · exact (serve_performed hv ht).trans (transmit_ack (s := (performSetclr a w mask val s).1) hp hq setclrCode .ok)

/-! ### Requests that are refused, and what is no request -/

/-- A received request runs Validate and then its access, which for every request but ECHO is the target's, under the
request's own code (R231 to R234, R238). -/
theorem exec_served_request {c : Command} (h : isRequest c = true) (s : State) :
    ∃ f, exec (c.received .serve) s = serve c f s ∧ ((∃ d, c = .echo d) ∨ ∃ g, f = targetAccess c.code g) := by
  cases c with
  | echo d => exact ⟨performEcho, rfl, .inl ⟨d, rfl⟩⟩
  | readResp => cases h
  | ack => cases h
  | _ => exact ⟨_, rfl, .inr ⟨_, rfl⟩⟩

/-- Settles O36: Validate's refusal is answered before the access, the target's is the access. -/
theorem failedRequestsAreNacked : Obligations.FailedRequestsAreNacked := by
  intro c s hp hq hr
  obtain ⟨f, served, access⟩ := exec_served_request hr s
  rw [served]
  refine ⟨fun e hv => ?validate, fun e hv ht noEcho => ?target⟩
  case validate => exact (serve_invalid hv).trans (transmit_ack hp hq c.code e.code)
  case target =>
    obtain ⟨g, rfl⟩ := access.resolve_left fun ⟨d, hd⟩ => noEcho d hd
    exact (serve_targetFailed hv ht).trans (transmit_ack hp hq c.code e.code)

/-- Settles O37: each of the three is answered with the same ACK under the received `cmd`. -/
theorem wrongWayCommandsAreNacked : Obligations.WrongWayCommandsAreNacked := by
  intro a w n v q e cmd s hp hq
  exact ⟨transmit_ack hp hq readRespCode .badCmd, transmit_ack hp hq ackCode .badCmd, transmit_ack hp hq cmd .badCmd⟩

/-! ### Bytes that are no command, and transport reports -/

/-- The responder and the session both take the event that the step before raised. -/
theorem fetch_takeInput {s : State} {u : RecvUse} {rest : List Input} (h : s.inputs = takeInput u :: rest) :
    fetch s = fetchEvent u s.rxEvent { s with inputs := rest, rxEvent := none } := by
  rw [← State.advance_one h]
  cases u <;> simp only [fetch, h, takeInput]

/-- Any report of Deserialize but BadCmd leaves the bytes undecoded (R201, R203 to R208). -/
theorem decodeFrame_error {p : Params} {x : Bytes} {e : DesError} (h : deserialize p x = .error e) (he : e ≠ .badCmd)
    (u : RecvUse) : decodeFrame p u x = .error e := by
  cases e with
  | badCmd => exact absurd rfl he
  | badCmdLen => simp only [decodeFrame, h]
  | badPayloadLen => simp only [decodeFrame, h]

/-- A delivered frame that does not deserialise (R238, R288). -/
theorem step_rejected {s : State} {u : RecvUse} {x : Bytes} {e : DesError} {rest : List Input}
    (hx : s.rxEvent = some (.frame x)) (hd : decodeFrame s.params u x = .error e) (h : s.inputs = takeInput u :: rest) :
    step s = rejected u x e { s with inputs := rest, rxEvent := none } := by
  simp only [step, fetch_takeInput h, hx, fetchEvent, hd, transact]

/-- A report of the deframer that is no frame is dropped by either end (R238, R288). -/
theorem step_dropsReport {s : State} {u : RecvUse} {e : RxEvent} {rest : List Input} (he : s.rxEvent = some e)
    (hf : ∀ x, e ≠ .frame x) (h : s.inputs = takeInput u :: rest) :
    step s = .next { s with inputs := rest, rxEvent := none } := by
  cases e with
  | frame x => exact absurd rfl (hf x)
  | _ => simp only [step, fetch_takeInput h, he, fetchEvent, transact]

/-- Settles O38: a rejected frame is answered by the responder alone, a transport report by neither end. -/
theorem undeserializableFramesAreNacked : Obligations.UndeserializableFramesAreNacked := by
  refine fun s rest => ⟨fun x e hx hd he => ?frame, fun report taken => ?report⟩
  case frame =>
    have undecoded := decodeFrame_error hd he
    refine ⟨fun h hq hp => ?_, fun h busy => ?_, fun h => step_rejected hx (undecoded .settle) h⟩
    · rw [step_rejected hx (undecoded .serve) h]
      exact transmit_ack (s := { s with inputs := rest, rxEvent := none }) hp hq (x.headD 0x00) e.code
    · rw [step_rejected hx (undecoded .serve) h]
      exact transmit_busy (c := ackOf s.params (x.headD 0x00) e.code) rfl busy
  case report =>
    obtain ⟨e, he, noFrame⟩ : ∃ e, s.rxEvent = some e ∧ ∀ x, e ≠ .frame x := by
      rcases report with he | he | he <;> exact ⟨_, he, nofun⟩
    rcases taken with h | h
    · exact step_dropsReport (u := .serve) he noFrame h
    · exact step_dropsReport (u := .settle) he noFrame h

/-! ### FlashUpdate -/

/-- FlashUpdate's preconditions in numbers (R244). -/
theorem flashAllowed_iff (off len : Nat) :
    flashAllowed off len = true ↔ off + len ≤ 2 ^ 24 ∧ len % 0x10000 = 0 := by
  simp only [flashAllowed, Bool.and_eq_true, decide_eq_true_eq]
  rfl

@[simp] theorem flashChunks_length (off : Nat) (src : Bytes) (n : Nat) : (flashChunks off src n).length = n := by
  induction n generalizing off src with
  | zero => rfl
  | succ n ih => simp [flashChunks, ih]

/-- Chunk `k` carries the source's bytes from `1024 k` on, to the address that many bytes on (R244). -/
theorem flashChunks_get {n k : Nat} (h : k < n) (off : Nat) (src : Bytes) : (flashChunks off src n)[k]? =
    some (.write (Config.flashBase + BitVec.ofNat 32 (off + 1024 * k)) 4 256 ((src.drop (1024 * k)).take 1024)) := by
  induction n generalizing off src k with
  | zero => omega
  | succ n ih =>
    cases k with
    | zero => rfl
    | succ k =>
      have offset : off + 1024 + 1024 * k = off + 1024 * (k + 1) := by omega
      have skipped : 1024 + 1024 * k = 1024 * (k + 1) := by omega
      simp only [flashChunks, flashChunk, List.getElem?_cons_succ, ih (Nat.lt_of_succ_lt_succ h), List.drop_drop, offset,
        skipped]

theorem flashSource_length (src : Bytes) (len : Nat) : (flashSource src len).length = max src.length len := by
  simp only [flashSource, List.length_append, List.length_map, List.length_range]
  omega

/-- The source's own bytes come first, verbatim (R244; log 23). -/
theorem flashSource_take (src : Bytes) (len : Nat) : (flashSource src len).take src.length = src :=
  List.take_left

/-- A source as long as the update is used as it is. -/
theorem flashSource_of_long {src : Bytes} {len : Nat} (h : len ≤ src.length) : flashSource src len = src := by
  simp [flashSource, Nat.sub_eq_zero_of_le h]

/-- What a call of FlashUpdate does where no operation is outstanding (R244). -/
theorem step_flashUpdate {s : State} {off len : Nat} {src : Bytes} {rest : List Input}
    (h : s.inputs = .flashUpdate off len src :: rest) (hs : s.session = .idle) (hf : s.flash = []) :
    step s =
      if ¬ (off + len ≤ 2 ^ 24 ∧ len % 0x10000 = 0) then .refused .flashPrecondition
      else if len / flashChunk = 0 then .next { s with inputs := rest, rxEvent := none, result := some .success }
      else .next { s with
        inputs := rest
        rxEvent := none
        flash := flashChunks off (flashSource src len) (len / flashChunk)
        result := none } := by
  simp only [step, fetch, h, transact, State.advance_one h, State.flashBegin, flashAllowed_iff]
  exact if_neg (by simp [hs, hf])

/-- Settles O45: the three outcomes are the branches of FlashUpdate's beginning; a whole sector holds at least one chunk. -/
theorem flashUpdateChunks : Obligations.FlashUpdateChunks := by
  intro s off len src rest h hs hf
  rw [step_flashUpdate h hs hf]
  refine ⟨fun bad => if_pos bad, fun window sectors positive => ?chunks, fun window zero => ?empty⟩
  case chunks =>
    have chunk : len / flashChunk ≠ 0 := by simp only [flashChunk]; omega
    rw [if_neg (not_not.2 ⟨window, sectors⟩), if_neg chunk]
    exact ⟨_, flashSource src len, flashChunks_length _ _ _, by rw [flashSource_length]; omega, flashSource_take src len,
      flashSource_of_long, fun k hk => flashChunks_get hk off _, rfl⟩
  case empty =>
    subst zero
    rw [if_neg (not_not.2 ⟨window, Nat.zero_mod _⟩), if_pos (Nat.zero_div _)]

/-- Settles O46: the first listed Write is fetched as a session request, and the list goes on without it. -/
theorem flashUpdateSendsNextChunk : Obligations.FlashUpdateSendsNextChunk := by
  intro s a w n v cs rest h hf
  simp only [step, fetch, h, State.advance_one h, fetchChunk, hf]

end Sys2Proof.Machine
end

section
/-! Reports, the two sides of the block, and the session (60_exceptions.md R268, R270, R285 to R288): how an exchange begins,
what ends it, and that nothing else does. -/

namespace Sys2Proof.Machine

/-! ### The receive side -/

/-- Settles O24: a byte that raises an event leaves the deframer fresh, and taking it writes the receive side alone. -/
theorem reportsChangeOnlyTheDeframer : Obligations.ReportsChangeOnlyTheDeframer := by
  intro s b e h
  have report : s.rx.step s.params b = (.fresh, some e) := Prod.ext (Deframer.step_event h) h
  exact State.takeByte_eq report

/-- Taking a byte reads nothing but the receive state and the parameters (R268). -/
theorem State.takeByte_congr {s t : State} (hrx : s.rx = t.rx) (hp : s.params = t.params) (b : Byte) :
    (t.takeByte b).rx = (s.takeByte b).rx ∧ (t.takeByte b).rxEvent = (s.takeByte b).rxEvent := by
  simp [hrx, hp]

/-- Taking a pair reads nothing but the receive state and the parameters (R268). -/
theorem State.takePair_congr {s t : State} (hrx : s.rx = t.rx) (hp : s.params = t.params) (b c : Byte) :
    (t.takePair b c).rx = (s.takePair b c).rx ∧ (t.takePair b c).rxEvent = (s.takePair b c).rxEvent := by
  simp [hrx, hp]

/-- The receive side and `TxEmit` write different parts of the state (R268). -/
theorem State.txEmit_setRx (s : State) (r : Deframer × Option RxEvent) : s.txEmit.setRx r = (s.setRx r).txEmit := by
  cases hq : s.txQueue with
  | nil => simp [State.txEmit, State.setRx, hq]
  | cons b q => simp [State.txEmit, State.setRx, hq]

theorem State.txEmit_takeByte (s : State) (b : Byte) : s.txEmit.takeByte b = (s.takeByte b).txEmit := by
  simp only [State.takeByte, State.txEmit_rx, State.txEmit_params, State.txEmit_setRx]

theorem State.txEmit_takePair (s : State) (b c : Byte) : s.txEmit.takePair b c = (s.takePair b c).txEmit := by
  simp only [State.takePair, State.txEmit_rx, State.txEmit_params, State.txEmit_setRx]

/-- Settles O57: a link symbol is a byte or a pair taken from the link, in every state. -/
theorem rxAndTxAreIndependent : Obligations.RxAndTxAreIndependent := by
  refine ⟨fun i s t s' hp hrx hparams h => ?_, fun i s s' hp h => ?_⟩ <;>
    rcases exec_symbol_bytes hp with ⟨b, -, run⟩ | ⟨c, -, run⟩ <;> cases (run s).symm.trans h
  · exact ⟨_, run t, State.takeByte_congr hrx hparams b⟩
  · exact ⟨_, run t, State.takePair_congr hrx hparams escByte c⟩
  · rw [run, State.txEmit_takeByte]
  · rw [run, State.txEmit_takePair]

/-! ### The end of an exchange -/

/-- Any outcome but a success ends FlashUpdate too (45_command_contract.md R244). -/
theorem State.finish_not_success {r : Result} (h : r ≠ .success) (s : State) :
    s.finish r = { s with session := .idle, result := some r, flash := [] } :=
  if_neg fun ⟨success, _⟩ => h success

/-- A success leaves FlashUpdate's Writes, and returns to the caller where there are none (45_command_contract.md R244). -/
theorem State.finish_success (s : State) :
    s.finish .success = { s with session := .idle, result := if s.flash = [] then some .success else none } := by
  by_cases hf : s.flash = []
  · simp [State.finish, hf]
  · simp [State.finish, hf]

/-! ### Requests -/

theorem request_blocked {s : State} (h : s.session ≠ .idle) (c : Command) : request c s = .refused .callerBlocked := by
  cases hs : s.session with
  | idle => exact absurd hs h
  | awaiting r k => simp only [request, hs]

theorem request_invalid {c : Command} {s : State} {e : FieldError} (hs : s.session = .idle)
    (hv : validate s.params c = some e) : request c s = .next (s.finish (.callError e.code)) := by
  simp only [request, serialize, hs, hv]

/-- With the session idle a request that Validate accepts goes to TxStart (R286). -/
theorem request_valid {c : Command} {s : State} (hs : s.session = .idle) (hv : validate s.params c = none) :
    request c s = s.txStartThen (layout s.params c) (fun t => t.await c) (fun e t => t.finish (.callError e)) := by
  simp only [request, serialize, hs, hv]

/-- Settles O31: a session request runs as `request`, by the session, by what Validate answers and by the queue. -/
theorem requestsOpenAnExchange : Obligations.RequestsOpenAnExchange := by
  intro c i s hi
  rw [(exec_requested hi s).1]
  refine ⟨fun e hs hv => ?invalid, fun hs hv hq hp => ?opened, fun hs hv hq => ?busy, fun hs => request_blocked hs c⟩
  case invalid => rw [request_invalid hs hv, State.finish_not_success (by simp), ← hs]
  case opened =>
    simp only [request_valid hs hv, State.txStartThen, State.txBusy_false hq, encodeFrame_fits (layout_fits hp hv)]
    rfl
  case busy =>
    rw [request_valid hs hv]
    exact if_pos ((State.txBusy_iff s).2 hq)

/-! ### Responses -/

theorem exec_settledAck (q e : Byte) (s : State) :
    exec (.ack (.receive .settle) q e) s = .next (settleAck q e s) := rfl

theorem exec_settledReadResp (a : U32) (w : Byte) (n : U16) (v : Bytes) (s : State) :
    exec (.readResp (.receive .settle) a w n v) s = .next (settleReadResp a w n v s) := rfl

theorem settleAck_idle {s : State} (h : s.session = .idle) (q e : Byte) : settleAck q e s = s := by
  simp only [settleAck, h]

theorem settleAck_awaiting {s : State} {r : Command} {k : Nat} (h : s.session = .awaiting r k) (q e : Byte) :
    settleAck q e s = if q = r.code then s.finish (ackResult s.params r e) else s := by
  simp only [settleAck, h]

theorem Command.code_eq_readCode {c : Command} : c.code = readCode ↔ ∃ a w n, c = .read a w n := by
  cases c <;> simp [Command.code, echoCode, readCode, writeCode, setclrCode, readRespCode, ackCode]

theorem ackResult_nack {p : Params} {e : Byte} (h : e ≠ p.errCode.ok) (r : Command) : ackResult p r e = .failed e :=
  if_neg h

/-- An ACK OK brings a READ no values (D29). -/
theorem ackResult_read {p : Params} {r : Command} (h : r.code = readCode) : ackResult p r p.errCode.ok = .noValues := by
  obtain ⟨a, w, n, rfl⟩ := Command.code_eq_readCode.1 h
  exact if_pos rfl

theorem ackResult_success {p : Params} {r : Command} (h : r.code ≠ readCode) :
    ackResult p r p.errCode.ok = .success := by
  cases r with
  | read a w n => exact absurd rfl h
  | _ => exact if_pos rfl

/-- Settles O40: an ACK that names the request ends the exchange with the result that its `err` and the request give. -/
theorem sessionMatchesAckByReq : Obligations.SessionMatchesAckByReq := by
  intro s q e
  simp only [exec_settledAck]
  refine ⟨fun hs => by rw [settleAck_idle hs], fun r k hs => ?_⟩
  have named : ∀ e, settleAck r.code e s = s.finish (ackResult s.params r e) := fun e =>
    (settleAck_awaiting hs r.code e).trans (if_pos rfl)
  refine ⟨fun hq => ?other, fun he => ?failed, fun hr => ?noValues, fun hr => ?success⟩
  case other => rw [settleAck_awaiting hs, if_neg hq]
  case failed => rw [named, ackResult_nack he, State.finish_not_success (by simp)]
  case noValues => rw [named, ackResult_read hr, State.finish_not_success (by simp)]
  case success => rw [named, ackResult_success hr, State.finish_success]

/-- A READ_RESP with the outstanding READ's fields ends the exchange with its elements (R288, R241). -/
theorem settleReadResp_match {s : State} {a : U32} {w : Byte} {n : U16} {k : Nat}
    (h : s.session = .awaiting (.read a w n) k) (v : Bytes) :
    settleReadResp a w n v s = s.finish (.values (elements s.params.fieldEndian w.toNat n.toNat v)) := by
  simp only [settleReadResp, h, and_self, if_true]

/-- A READ_RESP is dropped where no READ with its fields is outstanding (R288). -/
theorem settleReadResp_dropped {s : State} {a : U32} {w : Byte} {n : U16}
    (h : ∀ k, s.session ≠ .awaiting (.read a w n) k) (v : Bytes) : settleReadResp a w n v s = s := by
  rcases settleReadResp_cases a w n v s with same | ⟨k, hs, -⟩
  · exact same
  · exact absurd hs (h k)

/-- Settles O41: the values of a matching READ_RESP are its elements; any other is dropped. -/
theorem sessionMatchesReadRespByFields : Obligations.SessionMatchesReadRespByFields := by
  intro s a w n v
  simp only [exec_settledReadResp]
  refine ⟨fun hs => ?idle, fun r k hs => ⟨?matched, fun hr => ?other⟩⟩
  case idle => rw [settleReadResp_dropped (by simp [hs])]
  case matched =>
    rintro rfl
    obtain ⟨size, get⟩ := elements_spec s.params.fieldEndian w.toNat n.toNat v
    refine ⟨_, size, get, ?_⟩
    rw [settleReadResp_match hs, State.finish_not_success (by simp)]
  case other => rw [settleReadResp_dropped (by simp [hs, hr])]

/-- Settles O42: the session's arm of each request variant and of a reserved `cmd` leaves the state as it is. -/
theorem sessionDropsRequests : Obligations.SessionDropsRequests := by
  intro c cmd pl s
  refine ⟨fun hreq => ?_, rfl⟩
  cases c with
  | readResp a w n v => cases hreq
  | ack q e => cases hreq
  | _ => rfl

/-! ### The timer -/

theorem step_tick {s : State} {rest : List Input} (h : s.inputs = .tick :: rest) :
    step s = .next (State.tick { s with inputs := rest, rxEvent := none }) := by
  simp only [step, fetch, h, transact, State.advance_one h]

theorem State.tick_awaiting {s : State} {r : Command} {k : Nat} (h : s.session = .awaiting r k) :
    s.tick = if k ≤ 1 then { s with session := .idle, result := some .timeout, flash := [] }
      else { s with session := .awaiting r (k - 1) } := by
  simp only [State.tick, h, State.finish_not_success (r := .timeout) (by simp)]

/-- Settles O43: the step is a tick of the timer, which is the last one or is counted. -/
theorem timerExpiryEndsTheExchange : Obligations.TimerExpiryEndsTheExchange := by
  intro s r k rest h hs
  rw [step_tick h, State.tick_awaiting (s := { s with inputs := rest, rxEvent := none }) hs]
  exact ⟨fun last => congrArg _ (if_pos last), fun more => congrArg _ (if_neg (Nat.not_le.2 more))⟩

/-! ### What ends an exchange -/

/-- A response that the session takes is a delivered frame that deserialised to it. -/
theorem fetch_settled {s u : State} {i : Instr} (h : fetch s = .instr i u) (hp : i.port = .frame .settle)
    (hr : ∀ cmd pl, i ≠ .reservedCmd .settle cmd pl) :
    s.inputs.head? = some .settle ∧
      ∃ x c, s.rxEvent = some (.frame x) ∧ deserialize s.params x = .ok c ∧ i = c.received .settle := by
  rcases fetch_instr h with ⟨b, r, l, hi, hd⟩ | ⟨c, rfl, -⟩ | ⟨c, hc⟩ | ⟨v, x, he, hd, hin⟩
  · obtain ⟨w, hw⟩ := linkWindow_cons b r
    rw [hi, hw] at hd
    cases hp.symm.trans (decodeSymbol_head hd).2.2
  · cases hp.symm.trans (Command.transmitted_port c)
  · cases hp.symm.trans (Command.requested_port hc)
  · cases hp.symm.trans (decodeFrame_port hd)
    rcases decodeFrame_cases hd with ⟨c, hc, rfl⟩ | ⟨cmd, pl, rfl⟩
    · exact ⟨hin, x, c, he, hc, rfl⟩
    · exact absurd rfl (hr cmd pl)

/-- The instructions that end an exchange: an ACK that names the request, and a READ_RESP with the fields of the READ. -/
theorem exec_ends_exchange {i : Instr} {s t : State} {r : Command} {k : Nat} (h : exec i s = .next t)
    (hs : s.session = .awaiting r k) (ht : t.session = .idle) :
    (∃ e, i = (Command.ack r.code e).received .settle) ∨
    ∃ a w n v, r = .read a w n ∧ i = (Command.readResp a w n v).received .settle := by
  by_cases hp : i.port = .link
  · rcases exec_symbol_bytes hp with ⟨b, -, run⟩ | ⟨c, -, run⟩ <;> cases (run s).symm.trans h
    · cases hs.symm.trans ht
    · cases hs.symm.trans ht
  · rcases (exec_command_frame hp h).session with kept | idle | ⟨r', k', e, hs', rfl⟩ | ⟨a, w, n, v, k', hs', rfl⟩
    · cases hs.symm.trans (kept.symm.trans ht)
    · cases hs.symm.trans idle
    · cases hs.symm.trans hs'
      exact .inl ⟨e, rfl⟩
    · cases hs.symm.trans hs'
      exact .inr ⟨a, w, n, v, rfl, rfl⟩

/-- The transactions that end an exchange: reset, and the timer's last tick. -/
theorem transact_ends_exchange {a : Act} {s t : State} {r : Command} {k : Nat} (h : transact a s = .next t)
    (hs : s.session = .awaiting r k) (ht : t.session = .idle) :
    a = .reset ∨ (a = .tick ∧ k ≤ 1 ∧ t.result = some .timeout ∧ t.flash = []) := by
  rcases (transact_frame h).session with kept | idle | reset | rfl
  · cases hs.symm.trans (kept.symm.trans ht)
  · cases hs.symm.trans idle
  · exact .inl reset
  · cases h
    rw [State.tick_awaiting hs] at ht ⊢
    split_ifs at ht ⊢ with last
    exact .inr ⟨rfl, last, rfl, rfl⟩

theorem Command.received_injective (u : RecvUse) : Function.Injective (Command.received u) := by
  intro c d h
  cases c <;> cases d <;> cases h <;> rfl

/-- Settles O44: the fetch leaves the session as it is; what then ends the exchange is a response or a transaction that names
its input. -/
theorem onlyTheseEventsEndAnExchange : Obligations.OnlyTheseEventsEndAnExchange := by
  intro s t r k h hs ht
  rcases step_next h with ⟨i, u, hf, taken, run⟩ | ⟨a, u, hf, taken, run⟩ <;> rw [← taken.session] at hs
  · rcases exec_ends_exchange run hs ht with ⟨e, rfl⟩ | ⟨a, w, n, v, rfl, rfl⟩ <;>
      obtain ⟨hin, x, c, he, hc, same⟩ := fetch_settled hf rfl nofun <;>
      cases Command.received_injective _ same
    · exact .inr (.inr ⟨hin, x, _, he, hc, .inl ⟨e, rfl⟩⟩)
    · exact .inr (.inr ⟨hin, x, _, he, hc, .inr ⟨a, w, n, v, rfl, rfl⟩⟩)
  · obtain ⟨-, tick, reset, -, -, -⟩ := fetch_act hf
    rcases transact_ends_exchange run hs ht with rfl | ⟨rfl, last⟩
    · exact .inl (reset rfl)
    · exact .inr (.inl ⟨tick rfl, last⟩)

end Sys2Proof.Machine
end

section
/-! Reset, quiescence and the event port (70_reset_and_hazards.md R300, R303, R306): what the reset input and RxFlush install,
a machine at rest, and that only a host that takes an event depends on it. -/

namespace Sys2Proof.Machine

/-! ### Reset and RxFlush -/

theorem step_reset {s : State} {rest : List Input} (h : s.inputs = .reset :: rest) :
    step s = .next (State.resetBlock { s with inputs := rest, rxEvent := none }) := by
  simp only [step, fetch, h, transact, State.advance_one h]

theorem step_rxFlush {s : State} {rest : List Input} (h : s.inputs = .rxFlush :: rest) :
    step s = .next (State.rxFlush { s with inputs := rest, rxEvent := none }) := by
  simp only [step, fetch, h, transact, State.advance_one h]

/-- Settles O48: each input runs its transaction on the state without it, and the transaction gives the values. -/
theorem resetAndFlushInputs : Obligations.ResetAndFlushInputs := fun _ _ =>
  ⟨fun h => ⟨_, step_reset h, rfl, rfl, rfl, rfl⟩, step_rxFlush⟩

/-! ### A machine at rest -/

theorem State.quiescent_iff {s : State} :
    s.quiescent = true ↔ s.txQueue = [] ∧ s.inputs = [] ∧ s.session = .idle ∧ s.flash = [] := by
  simp only [State.quiescent, Bool.and_eq_true, List.isEmpty_iff, decide_eq_true_eq, and_assoc]

/-- With an empty queue there is no `TxEmit` (41_framer_tx.md R137). -/
theorem State.txEmit_nil {s : State} (h : s.txQueue = []) : s.txEmit = s := by
  simp only [State.txEmit, h]

/-- Settles O54: with no input left the block would emit, and with nothing queued it emits nothing. -/
theorem quiescentMachineRests : Obligations.QuiescentMachineRests := by
  intro s h
  obtain ⟨queue, inputs, -, -⟩ := State.quiescent_iff.1 h
  have rests : step s = .next { s with rxEvent := none } :=
    (step_idle inputs).trans (congrArg _ (State.txEmit_nil queue))
  exact ⟨rests, fun silent => by rw [rests, ← silent]⟩

/-! ### The event port -/

/-- A pair that raises an event leaves the deframer as reset does, even where the first byte raised it (60_exceptions.md
R270). -/
theorem State.takePair_event {s : State} {b c : Byte} {e : RxEvent} (hc : c ≠ flagByte)
    (h : (s.takePair b c).rxEvent = some e) : (s.takePair b c).rx = .fresh := by
  rw [State.takePair_rxEvent, Option.orElse_eq_some] at h
  rcases h with second | ⟨-, first⟩
  · exact Deframer.step_event second
  · rw [State.takePair_of_event (Prod.ext (Deframer.step_event first) first) hc]
    rfl

/-- What a step takes depends on the event port only where the host takes the event: every other input is taken from the
state that `State.advance` leaves, whose port is clear (R306). -/
theorem fetch_of_event {s : State} (serve : s.inputs.head? ≠ some .serve) (settle : s.inputs.head? ≠ some .settle)
    (e : Option RxEvent) : fetch { s with rxEvent := e } = fetch s := by
  obtain ⟨_, _, _, _, _, inputs, _⟩ := s
  cases inputs with
  | nil => rfl
  | cons x rest =>
    cases x with
    | serve => exact absurd rfl serve
    | settle => exact absurd rfl settle
    | _ => rfl

/-- Settles O59: an event comes from a link byte or a pair that the step took, and either leaves the deframer fresh; the event
before it is read by the fetch alone, and there only by a host that takes it. -/
theorem eventsAreNotLatched : Obligations.EventsAreNotLatched := by
  refine ⟨fun s t e h he => ?_, fun s e serve settle => ?_⟩
  · obtain ⟨u, b, -, hin, rfl | ⟨c, hc, rfl⟩⟩ := step_event_origin h he
    · exact ⟨⟨b, hin⟩, Deframer.step_event he⟩
    · exact ⟨⟨b, hin⟩, State.takePair_event hc he⟩
  · simp only [step, fetch_of_event serve settle]

/-! ### Words of the spec -/

/-- A table word whose bytes decode whole is that instruction (log 6). -/
theorem decodeTableWord_of_decode {nbits w : Nat} {i : Instr}
    (h : decode Params.default (tableBytes nbits w).1 (tableBytes nbits w).2 = .ok (i, [])) :
    decodeTableWord nbits w = some i := by
  simp only [decodeTableWord, h]

/-- Settles O5: each word is the encoding of its instruction, which is well formed, so it decodes to it. -/
theorem specWordsDecode : Obligations.SpecWordsDecode :=
  ⟨decode_encode (i := .read (.receive .serve) 0x40001000 4 2) (by decide),
    decode_encode (i := .write (.receive .serve) 3 1 1 [0x7E]) (by decide),
    decode_encode (i := .ack (.receive .settle) 0x03 0x05) (by decide),
    decodeTableWord_of_decode (decode_encode (i := .flag) rfl),
    decodeTableWord_of_decode (decode_encode (i := .escFlag) rfl),
    decodeTableWord_of_decode (decode_encode (i := .escEsc) rfl)⟩

end Sys2Proof.Machine
end
